-- ==== Sys2Proof/Word.lean ====
section
/-! DEFINITION. The word types of CORE and the name of a byte buffer. -/

namespace Sys2Proof

/-- A byte, an integer in 0..255 (00_scope.md R9). -/
abbrev Byte := BitVec 8

/-- A register, a command word or an index: 32 bits, unsigned, bit 0 the least significant (R8, R9). -/
abbrev Word := BitVec 32

/-- The two byte buffers: buffer 0 is BUFA, buffer 1 is BUFB (10_state.md R30). -/
inductive Buf where
  | bufA
  | bufB
deriving DecidableEq, Repr

end Sys2Proof
end

