-- ==== Sys2Proof/Syntax.lean ====
section
/-! DEFINITION. The six commands of CORE command set 1, one constructor per row of spec/opcode_table.json
(30_encoding.md R91). -/

namespace Sys2Proof

/-- A command. `src` is the buffer it reads (R92, R94), `cont` the CONT bit of an MTF command (R93). -/
inductive Instr where
  | nop
  | sort (src : Buf)
  | bwtf (src : Buf)
  | bwti (src : Buf)
  | mtfe (src : Buf) (cont : Bool)
  | mtfd (src : Buf) (cont : Bool)
deriving DecidableEq, Repr

end Sys2Proof
end

