-- ==== Sys2Proof/WellFormed.lean ====
section
/-! DEFINITION. The fields of a command word of format C (30_encoding.md R90) and the checks that make one legal
(R91, R93, R95, R96, R97). -/

namespace Sys2Proof

/-- The four fields of format C (R90). -/
structure Fields where
  op : BitVec 4
  src : Bool
  cont : Bool
  zero : BitVec 26
deriving DecidableEq, Repr

/-- Why a command word is illegal (R97). Every reason raises the one error ILLEGAL (60_exceptions.md R223). -/
inductive Illegal where
  /-- A bit of ZERO, w[31:6], is set (R95). -/
  | zeroFieldSet
  /-- OP is one of the reserved values 0x6 to 0xF (R91). -/
  | reservedOp
  /-- SRC = 1 or CONT = 1 with OP = 0 (R92, R93, R97). -/
  | operandOnNop
  /-- CONT = 1 with OP in 1, 2, 3 (R93, R97). -/
  | contOutsideMtf
deriving DecidableEq, Repr

/-- ZERO must be 0 (R95). -/
def Fields.zeroOk (f : Fields) : Bool := f.zero == 0

/-- OP must not be reserved (R91). -/
def Fields.opOk (f : Fields) : Bool := f.op.toNat ≤ 5

/-- NOP has SRC = 0 and CONT = 0 (R92, R93). -/
def Fields.nopOk (f : Fields) : Bool := f.op != 0 || (!f.src && !f.cont)

/-- CONT belongs to MTFE and MTFD only (R93). -/
def Fields.contOk (f : Fields) : Bool := !f.cont || f.op == 0 || f.op.toNat ≥ 4

/-- All the checks of R97 together. -/
def Fields.legal (f : Fields) : Bool := f.zeroOk && f.opOk && f.nopOk && f.contOk

/-- The SRC bit that names a buffer (R92). -/
def srcBit : Buf → Bool
  | .bufA => false
  | .bufB => true

/-- The fields of a command (R91, R92, R93). -/
def Instr.fields : Instr → Fields
  | .nop => ⟨0, false, false, 0⟩
  | .sort s => ⟨1, srcBit s, false, 0⟩
  | .bwtf s => ⟨2, srcBit s, false, 0⟩
  | .bwti s => ⟨3, srcBit s, false, 0⟩
  | .mtfe s c => ⟨4, srcBit s, c, 0⟩
  | .mtfd s c => ⟨5, srcBit s, c, 0⟩

/-- A command is well-formed when its fields pass every check of R97. The types of `Instr` leave room for no other:
`Laws.EncodesLegal` proves it of each constructor. -/
def Instr.WellFormed (i : Instr) : Bool := i.fields.legal

end Sys2Proof
end

