-- ==== Sys2Proof/Decode.lean ====
section
/-! DEFINITION. Decoding a command word, total on all 2^32 words and rejecting by name (30_encoding.md R97, R98, R101),
and after it the encoder (R101). -/

namespace Sys2Proof

/-- The fields of a word: OP = w[3:0], SRC = w[4], CONT = w[5], ZERO = w[31:6] (R90). -/
def fieldsOf (w : Word) : Fields :=
  { op := w.extractLsb' 0 4
    src := w.getLsbD 4
    cont := w.getLsbD 5
    zero := w.extractLsb' 6 26 }

/-- The buffer an SRC bit names (R92). -/
def bufOfBit : Bool → Buf
  | false => .bufA
  | true => .bufB

/-- The command of a word's fields, or the reason why the word is illegal. The arms are those of R101, in its order;
the last one refuses every operation code that is not named. -/
def decodeFields (f : Fields) : Except Illegal Instr :=
  if f.zero ≠ 0 then .error .zeroFieldSet
  else if f.op = 0 then
    if f.src || f.cont then .error .operandOnNop else .ok .nop
  else if f.op = 1 then
    if f.cont then .error .contOutsideMtf else .ok (.sort (bufOfBit f.src))
  else if f.op = 2 then
    if f.cont then .error .contOutsideMtf else .ok (.bwtf (bufOfBit f.src))
  else if f.op = 3 then
    if f.cont then .error .contOutsideMtf else .ok (.bwti (bufOfBit f.src))
  else if f.op = 4 then .ok (.mtfe (bufOfBit f.src) f.cont)
  else if f.op = 5 then .ok (.mtfd (bufOfBit f.src) f.cont)
  else .error .reservedOp

/-- decode(w) of R101: it depends on `w` alone (R98). -/
def decode (w : Word) : Except Illegal Instr := decodeFields (fieldsOf w)

/-- OP of a command (R91). -/
def opOf : Instr → Word
  | .nop => 0x0
  | .sort _ => 0x1
  | .bwtf _ => 0x2
  | .bwti _ => 0x3
  | .mtfe _ _ => 0x4
  | .mtfd _ _ => 0x5

/-- The SRC bit of a command as a number: 0 = BUFA, 1 = BUFB (R92). -/
def srcOf : Instr → Word
  | .nop => 0
  | .sort s | .bwtf s | .bwti s | .mtfe s _ | .mtfd s _ =>
    match s with
    | .bufA => 0
    | .bufB => 1

/-- The CONT bit of a command as a number (R93). -/
def contOf : Instr → Word
  | .nop | .sort _ | .bwtf _ | .bwti _ => 0
  | .mtfe _ c | .mtfd _ c => if c then 1 else 0

/-- encode(m) = OP(m) + 16 * s + 32 * c (R101): the one word of a command. -/
def encode (i : Instr) : Word := opOf i + 16 * srcOf i + 32 * contOf i

/-- The fifteen legal words, in the order of R96's table. -/
def legalWords : List Word :=
  [0x00000000, 0x00000001, 0x00000011, 0x00000002, 0x00000012, 0x00000003, 0x00000013, 0x00000004, 0x00000014,
   0x00000024, 0x00000034, 0x00000005, 0x00000015, 0x00000025, 0x00000035]

/-- What the decoder reads from an instruction of spec/opcode_table.json whose bits are `w`. A command is ONE 32-bit
word (R90) and an integer without byte order (20_memory.md R63), so there is nothing to lay out; a number with a bit
above 31 is no command word. -/
def decodeTableWord (nbits w : Nat) : Option Instr :=
  if w % 2 ^ nbits < 2 ^ 32 then (decode (BitVec.ofNat 32 (w % 2 ^ nbits))).toOption else none

end Sys2Proof
end

