-- ==== Sys2Proof/Config.lean ====
section
/-! DEFINITION. The parameters of an instance (00_scope.md R7) and the free values: what a memory element that nothing
has written since the last reset holds (10_state.md R38). -/

namespace Sys2Proof.Config

/-- The capacity NMAX of the instance that `Machine.State.reset` is the reset state of. R7 leaves NMAX OPEN
(1 <= NMAX <= 2^31 - 1). DESIGN CHOICE 4096, the value of the spec's vectors V11 and V12 (log entry 1). Only
`State.reset` uses it: every other definition reads the capacity from the state's CAP. -/
def nmax : Nat := 4096

/-- The largest NMAX that R7 allows. -/
def nmaxBound : Nat := 2 ^ 31 - 1

/-- ALPHA, the number of byte values (R7). -/
def alpha : Nat := 256

/-- CUTOFF: SS uses insertion sort on a range of fewer than CUTOFF elements (R7). -/
def cutoff : Nat := 15

/-- STKCAP, the capacity of the SS work stack for a given NMAX (R7). -/
def stkcap (nmax : Nat) : Nat := max 1 (nmax / 2)

/-- NREG, the number of register numbers (R7). -/
def nreg : Nat := 8

/-- WIRE_ORDER, the byte order of FIDX in the host's 4-byte wire header (R7, 20_memory.md R64). -/
inductive WireOrder where
  | bigEndian
  | littleEndian
deriving DecidableEq, Repr

/-- The default of WIRE_ORDER (R7). -/
def wireOrder : WireOrder := .bigEndian

/-- The memories whose contents after reset the spec leaves unspecified (10_state.md R38). -/
inductive Space where
  | bufA
  | bufB
  | ord
  | fcol
  | nxt
  | cnt
  | head
  | stack
deriving DecidableEq, Repr

/-- FREE VALUE (log entry 4): the byte that element `i` of an 8-bit space holds when nothing has written it since the
reset number `gen`. R38: unspecified, stable until written. DESIGN CHOICE (log entry 15): the value is keyed by the reset
number, the space and the index, and by no instance, so two instances at the same reset number read alike here, while
60_exceptions.md R235 and R38 leave each instance's contents to itself. -/
opaque unwrittenByte : (gen : Nat) → Space → (i : Nat) → Byte

/-- FREE VALUE (log entry 4): the same for a 32-bit space. The fields lo, hi and d of STACK[j] are its elements 3j,
3j + 1 and 3j + 2. DESIGN CHOICE (log entry 15): it too is keyed by no instance. -/
opaque unwrittenWord : (gen : Nat) → Space → (i : Nat) → Word

end Sys2Proof.Config
end

