-- ==== Sys2Proof/Machine/State.lean ====
section
/-! DEFINITION. The state of one CORE instance (10_state.md R20), the host's operations on it, the reasons to stop, and
the state after reset (R38). -/

namespace Sys2Proof.Machine

/-- A memory of elements of one width: the (index, element) pairs written since the last reset, indexes strictly
rising. An index that is not listed has not been written since the last reset and reads as a free value of Config
(R38, 20_memory.md R78; log entry 4). -/
abbrev Memory (α : Type) := List (Nat × α)

/-- One entry of the SS work stack: a range and a character index, three 32-bit indices (10_state.md R35). -/
structure StackEntry where
  lo : Word
  hi : Word
  d : Word
deriving DecidableEq, Repr

/-- The two MTF tables of 256 bytes each (10_state.md R32). -/
structure MtfTables where
  /-- MORDER[r]: the byte value at rank r. -/
  morder : Vector Byte 256
  /-- MRANK[c]: the rank of byte value c. -/
  mrank : Vector Byte 256
deriving DecidableEq, Repr

/-- The identity tables: MORDER[i] = i and MRANK[i] = i (R38, 42_mtf_recoder.md R182). -/
def MtfTables.identity : MtfTables :=
  { morder := ⟨((List.range 256).map (BitVec.ofNat 8)).toArray, by simp⟩
    mrank := ⟨((List.range 256).map (BitVec.ofNat 8)).toArray, by simp⟩ }

/-- The five host operations (43_host_and_nop.md R200). A register number or an index is any natural number: the
numbers the block lacks have a defined effect too (20_memory.md R66). -/
inductive HostOp where
  /-- HRD(r): read register r (R201). -/
  | hrd (r : Nat)
  /-- HWR(r, v): write v to register r; r = 0 executes the command word v (R202, R206). -/
  | hwr (r : Nat) (v : Word)
  /-- HRB(b, i): read element i of a buffer (R203). -/
  | hrb (b : Buf) (i : Nat)
  /-- HWB(b, i, v): write element i of a buffer (R204). -/
  | hwb (b : Buf) (i : Nat) (v : Byte)
  /-- HRO(i): read element i of ORD (R205). -/
  | hro (i : Nat)
deriving DecidableEq, Repr

/-- What can happen to an instance: a host operation, or reset, "the only other event" (R200, 70_reset_and_hazards.md
R250). -/
inductive HostEvent where
  | op (o : HostOp)
  | reset
deriving DecidableEq, Repr

/-- What a host read returns: 32 bits from HRD and HRO, a byte from HRB (R200). -/
inductive Reply where
  | word (v : Word)
  | byte (v : Byte)
deriving DecidableEq, Repr

/-- The reasons for which the machine stops: NONE. Every host operation with every argument has a defined effect
(43_host_and_nop.md R212), a command that fails writes STATUS and the machine goes on (60_exceptions.md R226), and an
out-of-range access is defined (20_memory.md R66). Nobody raises a fault; safe (log entry 7). -/
inductive Fault where
deriving DecidableEq, Repr

/-- The reasons for which a step has no meaning. -/
inductive Refusal where
  /-- Raised by an arm of exec whose command has no meaning yet; safe. No arm raises it: every command is modelled. -/
  | notModelled (mnemonic : String)
deriving DecidableEq, Repr

/-- The complete state of one CORE instance (10_state.md R20), and below it the model's own three fields. -/
structure State where
  /-- STATUS.ERR, STATUS[3:0]; STATUS[31:4] is hardwired 0 (R23). -/
  err : BitVec 4
  /-- LEN (R24). -/
  len : Word
  /-- FIDX (R25). -/
  fidx : Word
  /-- CAP, hardwired to the parameter NMAX (R26): no step changes it (log entry 1). -/
  cap : Word
  /-- BUFA (R30). -/
  bufA : Memory Byte
  /-- BUFB (R30). -/
  bufB : Memory Byte
  /-- ORD (R31). -/
  ord : Memory Word
  /-- MORDER and MRANK (R32). -/
  tables : MtfTables
  /-- FCOL, BT scratch (R34). -/
  fcol : Memory Byte
  /-- NEXT, BT scratch (R34). -/
  nxt : Memory Word
  /-- CNT, BT scratch, 256 counters (R34). -/
  cnt : Memory Word
  /-- HEAD, BT scratch, 256 pointers (R34). -/
  head : Memory Word
  /-- STACK, SS scratch (R35). -/
  stack : Memory StackEntry
  /-- SP, SS scratch (R35). -/
  sp : Nat
  /-- The model's own: how many reset events there have been since power-on (log entry 4). -/
  resets : Nat
  /-- The model's own: the host operations and resets still to come, the next one first (log entry 2). -/
  inputs : List HostEvent
  /-- The model's own: what the host's reads returned, oldest first (log entry 3). -/
  replies : List Reply
deriving DecidableEq, Repr

/-- The state right after reset number `gen` of an instance with capacity `nmax` (R38, 70_reset_and_hazards.md R251):
STATUS, LEN, FIDX and SP are 0, CAP is NMAX, the MTF tables are the identity, and every memory is unspecified, which
here is: nothing listed. -/
def State.resetOf (nmax : Word) (gen : Nat) : State :=
  { err := 0, len := 0, fidx := 0, cap := nmax,
    bufA := [], bufB := [], ord := [], tables := MtfTables.identity,
    fcol := [], nxt := [], cnt := [], head := [], stack := [], sp := 0,
    resets := gen, inputs := [], replies := [] }

/-- The machine right after power-on reset, for the instance Config.nmax names. -/
def State.reset : State := State.resetOf (BitVec.ofNat 32 Config.nmax) 0

end Sys2Proof.Machine
end

