-- ==== Sys2Proof/Machine/Flags.lean ====
section
/-! DEFINITION. The one flag of the block, STATUS.ERR: the outcome codes and the value STATUS reads as
(10_state.md R23, R29; 60_exceptions.md R220). -/

namespace Sys2Proof.Machine

/-- The three synchronous errors (R220). -/
inductive CoreError where
  | validation
  | format
  | illegal
deriving DecidableEq, Repr

/-- The code of a successful completion, OK (R220). -/
def okCode : BitVec 4 := 0

/-- The code of an error: VALIDATION 1, FORMAT 2, ILLEGAL 3 (R220). -/
def errorCode : CoreError → BitVec 4
  | .validation => 1
  | .format => 2
  | .illegal => 3

/-- What STATUS reads as: ERR in bits 3:0, bits 31:4 hardwired 0 (R23). -/
def statusWord (err : BitVec 4) : Word := err.zeroExtend 32

end Sys2Proof.Machine
end

