-- ==== Sys2Proof/Machine/Ops.lean ====
section
/-! DEFINITION. The operations that every command and every host operation goes through: reading and writing a memory,
reading a block of a buffer, completing a command, raising an error, and reset. -/

namespace Sys2Proof.Machine

/-! ### One memory -/

/-- The element written at an index since the last reset, if there is one. -/
def Memory.get? {α : Type} : Memory α → Nat → Option α
  | [], _ => none
  | (k, x) :: m, i => if k = i then some x else Memory.get? m i

/-- `sp[i] <- v` (00_scope.md R11), keeping the indexes strictly rising. -/
def Memory.set {α : Type} : Memory α → Nat → α → Memory α
  | [], i, v => [(i, v)]
  | (k, x) :: m, i, v =>
    if i < k then (i, v) :: (k, x) :: m
    else if i = k then (i, v) :: m
    else (k, x) :: Memory.set m i v

/-- Write a list of elements at consecutive indexes, in increasing order, the first at `i`. -/
def Memory.setFrom {α : Type} (m : Memory α) (i : Nat) : List α → Memory α
  | [] => m
  | v :: vs => Memory.setFrom (Memory.set m i v) (i + 1) vs

/-- The canonical form of a memory of `size` elements: the indexes rise strictly and are below `size`. -/
def Memory.wfFrom {α : Type} (size : Nat) : (least : Nat) → Memory α → Bool
  | _, [] => true
  | least, (k, _) :: m => decide (least ≤ k) && decide (k < size) && Memory.wfFrom size (k + 1) m

/-- The canonical form of a memory of `size` elements. -/
def Memory.wf {α : Type} (size : Nat) (m : Memory α) : Bool := Memory.wfFrom size 0 m

/-! ### The memories of the state. An element nothing has written since the last reset reads as a free value that
stays the same until it is written (10_state.md R38, 20_memory.md R78). -/

/-- The buffer of a given name (10_state.md R30). -/
def State.buf (s : State) : Buf → Memory Byte
  | .bufA => s.bufA
  | .bufB => s.bufB

/-- The state with one buffer replaced. -/
def State.withBuf (s : State) (b : Buf) (m : Memory Byte) : State :=
  match b with
  | .bufA => { s with bufA := m }
  | .bufB => { s with bufB := m }

/-- The space of Config a buffer is. -/
def bufSpace : Buf → Config.Space
  | .bufA => .bufA
  | .bufB => .bufB

/-- An element of an 8-bit memory. -/
def byteRead (gen : Nat) (sp : Config.Space) (m : Memory Byte) (i : Nat) : Byte :=
  (Memory.get? m i).getD (Config.unwrittenByte gen sp i)

/-- An element of a 32-bit memory. -/
def wordRead (gen : Nat) (sp : Config.Space) (m : Memory Word) (i : Nat) : Word :=
  (Memory.get? m i).getD (Config.unwrittenWord gen sp i)

/-- An entry of the work stack (10_state.md R35). -/
def stackRead (gen : Nat) (m : Memory StackEntry) (i : Nat) : StackEntry :=
  (Memory.get? m i).getD
    { lo := Config.unwrittenWord gen .stack (3 * i)
      hi := Config.unwrittenWord gen .stack (3 * i + 1)
      d := Config.unwrittenWord gen .stack (3 * i + 2) }

/-- BUFA[i] or BUFB[i]. -/
def bufRead (s : State) (b : Buf) (i : Nat) : Byte := byteRead s.resets (bufSpace b) (s.buf b) i

/-- ORD[i]. -/
def ordRead (s : State) (i : Nat) : Word := wordRead s.resets .ord s.ord i

/-- The byte string in elements [0, n) of a buffer (00_scope.md R10). -/
def readBlock (s : State) (b : Buf) (n : Nat) : List Byte := (List.range n).map (bufRead s b)

/-- The elements [0, n) of ORD. -/
def readOrd (s : State) (n : Nat) : List Word := (List.range n).map (ordRead s)

/-- Write a byte string to the elements of a buffer from 0 on. -/
def writeBlock (s : State) (b : Buf) (bytes : List Byte) : State := s.withBuf b ((s.buf b).setFrom 0 bytes)

/-- A list of indices as 32-bit elements. -/
def toWords (is : List Nat) : List Word := is.map (BitVec.ofNat 32)

/-! ### How a command ends -/

/-- The completion of a successful command: its last action is STATUS.ERR <- 0 (10_state.md R23, R29). -/
def complete (s : State) : Host.Outcome State Fault Refusal := .next { s with err := okCode }

/-- TAKING AN EXCEPTION, the block's error completion (60_exceptions.md R226): STATUS.ERR <- code, and nothing else. It
saves nothing, switches no mode and transfers control nowhere, so there is no return operation beside it: the next
command overwrites STATUS.ERR and nothing needs restoring (R228). -/
def raise (e : CoreError) (s : State) : Host.Outcome State Fault Refusal := .next { s with err := errorCode e }

/-- The start of every command but NOP: sample LEN once as n and raise VALIDATION when n > NMAX, before anything else
(43_host_and_nop.md R206; 60_exceptions.md R221(a), R225(2)). -/
def withBlockLength (s : State) (run : (n : Nat) → Host.Outcome State Fault Refusal) :
    Host.Outcome State Fault Refusal :=
  if s.cap.toNat < s.len.toNat then raise .validation s else run s.len.toNat

/-! ### Reset -/

/-- The reset event (70_reset_and_hazards.md R250, R251): every piece of the block's state takes its reset value, and
the unspecified memories are drawn anew. What the host will do next and what it has read are not the block's. -/
def resetEvent (s : State) : State :=
  { State.resetOf s.cap (s.resets + 1) with inputs := s.inputs, replies := s.replies }

end Sys2Proof.Machine
end

