-- ==== Sys2Proof/Machine/Nop.lean ====
section
/-! DEFINITION. The command NOP (43_host_and_nop.md R207). -/

namespace Sys2Proof.Machine

/-- NOP: STATUS.ERR <- 0; LEN is neither sampled nor checked (R207). -/
def execNop (s : State) : Host.Outcome State Fault Refusal := complete s

end Sys2Proof.Machine
end

