-- ==== Sys2Proof/Machine/Operands.lean ====
section
/-! DEFINITION. How the core names its operands: source and destination buffer, circular addressing, the character
function, rotations and their order. -/

namespace Sys2Proof.Machine

/-- DSTBUF for a given SRCBUF: the other buffer (30_encoding.md R94). -/
def dstOf : Buf → Buf
  | .bufA => .bufB
  | .bufB => .bufA

/-- Circular addressing: EA = (k + t) mod n (20_memory.md R70). -/
def circ (n k t : Nat) : Nat := (k + t) % n

/-- SRCBUF[(k + t) mod n] for the block `S` (R70). The index is below n whenever n >= 1. -/
def circByte (S : List Byte) (k t : Nat) : Byte := S.getD (circ S.length k t) 0

/-- char(k, d) of 40_suffix_sorter.md R122: a byte's value, or the implicit character -1 at position n. -/
def charAt (S : List Byte) (k d : Nat) : Int :=
  if d < S.length then ((circByte S k d).toNat : Int) else -1

/-- rot(S, k), the circular rotation that begins at offset k (00_scope.md R13). -/
def rot (S : List Byte) (k : Nat) : List Byte := (List.range S.length).map (circByte S k)

/-- X < Y for byte sequences of the same length (00_scope.md R12): at the first difference X has the smaller byte,
unsigned. -/
abbrev lexLt (X Y : List Byte) : Prop :=
  ∃ t, t < X.length ∧ (∀ u, u < t → X.getD u 0 = Y.getD u 0) ∧ (X.getD t 0).toNat < (Y.getD t 0).toNat

/-- The order SORT puts offsets in (40_suffix_sorter.md R121): by rotation, ties by ascending offset. -/
abbrev rotKeyLt (S : List Byte) (a b : Nat) : Prop :=
  lexLt (rot S a) (rot S b) ∨ (rot S a = rot S b ∧ a < b)

/-- The comparison loop of LESS (R128): positions t, t+1, ... for `fuel` positions, then the tie-break. -/
def lessFrom (S : List Byte) (a b : Nat) : (fuel : Nat) → (t : Nat) → Bool
  | 0, _ => decide (a < b)
  | fuel + 1, t =>
    if (circByte S a t).toNat < (circByte S b t).toNat then true
    else if (circByte S b t).toNat < (circByte S a t).toNat then false
    else lessFrom S a b fuel (t + 1)

/-- LESS(a, b, d) (R128): positions d..n-1, then ascending offset. -/
def less (S : List Byte) (a b d : Nat) : Bool := lessFrom S a b (S.length - d) d

end Sys2Proof.Machine
end

