-- ==== Sys2Proof/Machine/Recoder.lean ====
section
/-! DEFINITION. MR, the move-to-front recoder: MTFE and MTFD (42_mtf_recoder.md R180 to R196). -/

namespace Sys2Proof.Machine

/-- The loop of FRONT (R183) for ranks r, r-1, ..., 1: the value at rank r-1 moves to rank r. -/
def frontLoop (t : MtfTables) : (r : Nat) → r < 256 → MtfTables
  | 0, _ => t
  | r + 1, h =>
    let x := t.morder[r]
    frontLoop
      { morder := t.morder.set (r + 1) x
        mrank := t.mrank.set x.toNat (BitVec.ofNat 8 (r + 1)) x.isLt }
      r (Nat.lt_of_succ_lt h)

/-- FRONT(c) (R183): with p = MRANK[c] at entry, ranks 0..p-1 move up by one and c takes rank 0. -/
def front (t : MtfTables) (c : Byte) : MtfTables :=
  let p := t.mrank[c.toNat]
  let u := frontLoop t p.toNat p.isLt
  { morder := u.morder.set 0 c
    mrank := u.mrank.set c.toNat 0 c.isLt }

/-- What ENC_STEP(c) emits: MRANK[c] before the update (R185). -/
def encEmit (t : MtfTables) (c : Byte) : Byte := t.mrank[c.toNat]

/-- What DEC_STEP(p) emits: MORDER[p] (R186). -/
def decEmit (t : MtfTables) (p : Byte) : Byte := t.morder[p.toNat]

/-- ENC_STEP over the input bytes in increasing order (R185, R187): the emitted bytes and the last tables. -/
def encodeRun (t : MtfTables) : List Byte → List Byte × MtfTables
  | [] => ([], t)
  | c :: cs =>
    let r := encodeRun (front t c) cs
    (encEmit t c :: r.1, r.2)

/-- DEC_STEP over the input ranks in increasing order (R186, R188): the emitted bytes and the last tables. -/
def decodeRun (t : MtfTables) : List Byte → List Byte × MtfTables
  | [] => ([], t)
  | p :: ps =>
    let r := decodeRun (front t (decEmit t p)) ps
    (decEmit t p :: r.1, r.2)

/-- The tables a command starts from: identity when CONT = 0, as they stand when CONT = 1 (R182). -/
def startTables (cont : Bool) (s : State) : MtfTables := if cont then s.tables else MtfTables.identity

/-- Write back an MTF run: DSTBUF[0..n) and the tables (R190). -/
def finishRecode (src : Buf) (r : List Byte × MtfTables) (s : State) : State :=
  writeBlock { s with tables := r.2 } (dstOf src) r.1

/-- MTFE (43_host_and_nop.md R206; 42_mtf_recoder.md R187, R189). -/
def execMtfe (src : Buf) (cont : Bool) (s : State) : Host.Outcome State Fault Refusal :=
  withBlockLength s fun n => complete (finishRecode src (encodeRun (startTables cont s) (readBlock s src n)) s)

/-- MTFD (43_host_and_nop.md R206; 42_mtf_recoder.md R188, R189). -/
def execMtfd (src : Buf) (cont : Bool) (s : State) : Host.Outcome State Fault Refusal :=
  withBlockLength s fun n => complete (finishRecode src (decodeRun (startTables cont s) (readBlock s src n)) s)

end Sys2Proof.Machine
end

