-- ==== Sys2Proof/Machine/Sorter.lean ====
section
/-! DEFINITION. SS, the suffix sorter: the micro-sequence SORT_MICRO (40_suffix_sorter.md R124 to R129) and the command
SORT. While the micro-sequence runs, the elements [0, n) of ORD are a list, which R124's first loop fills; they are
written to ORD when it ends (nothing can observe the block in between, 00_scope.md R6). Each while loop has a bound on
its rounds, which `Laws.Sorter` proves it never reaches (R130; log entry 6). -/

namespace Sys2Proof.Machine

/-- What SORT_MICRO works on: ORD[0..n), STACK and SP. -/
structure SorterRun where
  ord : List Nat
  stack : Memory StackEntry
  sp : Nat

/-- `swap(ORD[i], ORD[j])` (00_scope.md R11). -/
def swapAt (o : List Nat) (i j : Nat) : List Nat := (o.set i (o.getD j 0)).set j (o.getD i 0)

/-! ### Insertion sort (R128) -/

/-- The inner loop of INSERTION, from position j: while j > lo and LESS(ORD[j], ORD[j-1], d), swap them and go down. -/
def sink (S : List Byte) (lo d : Nat) : (j : Nat) → List Nat → List Nat
  | 0, o => o
  | j + 1, o =>
    if lo < j + 1 ∧ less S (o.getD (j + 1) 0) (o.getD j 0) d = true then sink S lo d j (swapAt o (j + 1) j) else o

/-- INSERTION(lo, hi, d) (R128): i runs over lo+1..hi. -/
def insertion (S : List Byte) (lo hi d : Nat) (o : List Nat) : List Nat :=
  (List.range' (lo + 1) (hi - lo)).foldl (fun o i => sink S lo d i o) o

/-! ### Partition (R126) -/

/-- The while loop of PARTITION, with the pivot character v. -/
def partitionLoop (S : List Byte) (d : Nat) (v : Int) :
    (fuel : Nat) → (lt i gt : Nat) → List Nat → Nat × Nat × List Nat
  | 0, lt, _, gt, o => (lt, gt, o)
  | fuel + 1, lt, i, gt, o =>
    if i ≤ gt then
      if charAt S (o.getD i 0) d < v then partitionLoop S d v fuel (lt + 1) (i + 1) gt (swapAt o lt i)
      else if v < charAt S (o.getD i 0) d then partitionLoop S d v fuel lt i (gt - 1) (swapAt o i gt)
      else partitionLoop S d v fuel lt (i + 1) gt o
    else (lt, gt, o)

/-- PARTITION(lo, hi, d): (lt, gt) and the new order (R126). The loop runs hi - lo rounds: each moves i up or gt
down. -/
def partitionRange (S : List Byte) (lo hi d : Nat) (o : List Nat) : Nat × Nat × List Nat :=
  partitionLoop S d (charAt S (o.getD lo 0) d) (hi - lo) lo (lo + 1) hi o

/-! ### The work stack and the main loop (R124, R125) -/

/-- push(lo, hi, d) (R124). -/
def push (lo hi d : Nat) (r : SorterRun) : SorterRun :=
  { r with
    stack := Memory.set r.stack r.sp ⟨BitVec.ofNat 32 lo, BitVec.ofNat 32 hi, BitVec.ofNat 32 d⟩
    sp := r.sp + 1 }

/-- push unless the bucket has fewer than two elements (R125). -/
def pushBucket (size lo hi d : Nat) (r : SorterRun) : SorterRun := if 2 ≤ size then push lo hi d r else r

/-- One round of the main loop on the popped range (lo, hi, d) (R125). -/
def sortRange (S : List Byte) (lo hi d : Nat) (r : SorterRun) : SorterRun :=
  if hi - lo + 1 < Config.cutoff ∨ d = S.length then { r with ord := insertion S lo hi d r.ord }
  else
    let p := partitionRange S lo hi d r.ord
    pushBucket (p.1 - lo) lo (p.1 - 1) d
      (pushBucket (p.2.1 - p.1 + 1) p.1 p.2.1 (d + 1)
        (pushBucket (hi - p.2.1) (p.2.1 + 1) hi d { r with ord := p.2.2 }))

/-- The main loop: while SP > 0, pop a range and treat it (R125). -/
def sortLoop (S : List Byte) (gen : Nat) : (fuel : Nat) → SorterRun → SorterRun
  | 0, r => r
  | fuel + 1, r =>
    if r.sp = 0 then r
    else
      let e := stackRead gen r.stack (r.sp - 1)
      sortLoop S gen fuel (sortRange S e.lo.toNat e.hi.toNat e.d.toNat { r with sp := r.sp - 1 })

/-- The initialisation of SORT_MICRO(n) (R124): ORD[i] <- i, SP <- 0, and one range when n >= 2. -/
def sortStart (S : List Byte) (stack : Memory StackEntry) : SorterRun :=
  let start : SorterRun := { ord := List.range S.length, stack := stack, sp := 0 }
  if 2 ≤ S.length then push 0 (S.length - 1) 0 start else start

/-- SORT_MICRO(n) on S = SRCBUF[0..n): the initialisation (R124) and the main loop (R125), which pops at most n * (n + 1)
ranges (R130). It ends with SP = 0 and with ORD[0..n) the permutation of R121: that is the refinement of R131, which the
obligation SortMicroRefinesOrder states and `sortMicro_spec`, `sortMicro_isOrder` and `IsOrder.unique` of Laws/ give. -/
def sortMicro (S : List Byte) (gen : Nat) (stack : Memory StackEntry) : SorterRun :=
  sortLoop S gen (S.length * (S.length + 1)) (sortStart S stack)

/-- SORT_MICRO(n) with SRCBUF = `src`, on the state: ORD[0..n), STACK and SP (R124, R133). -/
def runSorter (src : Buf) (n : Nat) (s : State) : State :=
  let r := sortMicro (readBlock s src n) s.resets s.stack
  { s with ord := Memory.setFrom s.ord 0 (toWords r.ord), stack := r.stack, sp := r.sp }

/-- SORT (43_host_and_nop.md R206; 40_suffix_sorter.md R120 to R133). -/
def execSort (src : Buf) (s : State) : Host.Outcome State Fault Refusal :=
  withBlockLength s fun n => complete (runSorter src n s)

end Sys2Proof.Machine
end

