-- ==== Sys2Proof/Machine/Transformer.lean ====
section
/-! DEFINITION. BT, the Burrows-Wheeler transformer: BWTF (41_bwt_transformer.md R150 to R159) and BWTI (R160 to
R173). -/

namespace Sys2Proof.Machine

/-! ### Forward -/

/-- The second loop of BWTF_MICRO (R152) over the elements of ORD from row i on: the row that holds offset 0, and the
payload bytes. `fi` is the row found so far; its first value is never used, since ORD is a permutation and n >= 1. -/
def payloadLoop (S : List Byte) : (i fi : Nat) → List Nat → Nat × List Byte
  | _, fi, [] => (fi, [])
  | i, fi, k :: ks =>
    let r := payloadLoop S (i + 1) (if k = 0 then i else fi) ks
    (r.1, S.getD ((k + S.length - 1) % S.length) 0 :: r.2)

/-- BWTF_MICRO(n) after the checks: SORT_MICRO(n), then FIDX and DSTBUF[0..n) (R152). -/
def runForward (src : Buf) (n : Nat) (s : State) : State :=
  let S := readBlock s src n
  let r := payloadLoop S 0 0 (sortMicro S s.resets s.stack).ord
  writeBlock { runSorter src n s with fidx := BitVec.ofNat 32 r.1 } (dstOf src) r.2

/-- BWTF (43_host_and_nop.md R206): LEN > NMAX and LEN = 0 raise VALIDATION (41_bwt_transformer.md R155). -/
def execBwtf (src : Buf) (s : State) : Host.Outcome State Fault Refusal :=
  withBlockLength s fun n => if n = 0 then raise .validation s else complete (runForward src n s)

/-! ### Inverse (R164) -/

/-- What BWTI_MICRO leaves: CNT, HEAD, FCOL[0..n), NEXT[0..n) and DSTBUF[0..n). -/
structure InverseRun where
  cnt : List Nat
  head : List Nat
  fcol : List Byte
  nxt : List Nat
  out : List Byte

/-- The first two loops: CNT[v] <- 0 for every v, then one increment for each payload byte. -/
def countBytes (P : List Byte) : List Nat :=
  P.foldl (fun c b => c.modify b.toNat (· + 1)) (List.replicate Config.alpha 0)

/-- The third loop over the byte values from v on: HEAD[v] <- sum, and the CNT[v] elements of FCOL from `sum` on are
v. -/
def firstColumn : (v sum : Nat) → (cnt : List Nat) → List Nat × List Byte
  | _, _, [] => ([], [])
  | v, sum, c :: cs =>
    let r := firstColumn (v + 1) (sum + c) cs
    (sum :: r.1, List.replicate c (BitVec.ofNat 8 v) ++ r.2)

/-- The fourth loop over the payload from position j on: NEXT[HEAD[P[j]]] <- j, then HEAD[P[j]] moves up. -/
def mapLoop : (j : Nat) → (P : List Byte) → (head nxt : List Nat) → List Nat × List Nat
  | _, [], head, nxt => (head, nxt)
  | j, b :: bs, head, nxt =>
    mapLoop (j + 1) bs (head.modify b.toNat (· + 1)) (nxt.set (head.getD b.toNat 0) j)

/-- The walk: FCOL[pos], then pos <- NEXT[pos], `k` times. -/
def walk (fcol : List Byte) (nxt : List Nat) : (k pos : Nat) → List Byte
  | 0, _ => []
  | k + 1, pos => fcol.getD pos 0 :: walk fcol nxt k (nxt.getD pos 0)

/-- BWTI_MICRO(n, fi) on P = SRCBUF[0..n) (R164). Every element of NEXT[0..n) is written before it is read, so the
zeros it starts from here do not matter. -/
def inverseMicro (P : List Byte) (fi : Nat) : InverseRun :=
  let cnt := countBytes P
  let col := firstColumn 0 0 cnt
  let lf := mapLoop 0 P col.1 (List.replicate P.length 0)
  { cnt := cnt, head := lf.1, fcol := col.2, nxt := lf.2, out := walk col.2 lf.2 P.length fi }

/-- BWTI_MICRO(n, fi) on the state: DSTBUF[0..n) and the scratch FCOL, NEXT, CNT, HEAD (R164, R167; log entry 5). -/
def runInverse (src : Buf) (n fi : Nat) (s : State) : State :=
  let r := inverseMicro (readBlock s src n) fi
  writeBlock
    { s with
      cnt := Memory.setFrom s.cnt 0 (toWords r.cnt)
      head := Memory.setFrom s.head 0 (toWords r.head)
      fcol := Memory.setFrom s.fcol 0 r.fcol
      nxt := Memory.setFrom s.nxt 0 (toWords r.nxt) }
    (dstOf src) r.out

/-- BWTI (43_host_and_nop.md R206): LEN > NMAX raises VALIDATION, then FIDX >= LEN raises FORMAT
(41_bwt_transformer.md R166). -/
def execBwti (src : Buf) (s : State) : Host.Outcome State Fault Refusal :=
  withBlockLength s fun n =>
    if n ≤ s.fidx.toNat then raise .format s else complete (runInverse src n s.fidx.toNat s)

end Sys2Proof.Machine
end

