-- ==== Sys2Proof/Machine/Dispatch.lean ====
section
/-! DEFINITION. One arm per command (43_host_and_nop.md R206). -/

namespace Sys2Proof.Machine

def exec (i : Instr) (s : State) : Host.Outcome State Fault Refusal :=
  match i with
  | .nop => Sys2Proof.Machine.execNop s
  | .sort src => Sys2Proof.Machine.execSort src s
  | .bwtf src => Sys2Proof.Machine.execBwtf src s
  | .bwti src => Sys2Proof.Machine.execBwti src s
  | .mtfe src cont => Sys2Proof.Machine.execMtfe src cont s
  | .mtfd src cont => Sys2Proof.Machine.execMtfd src cont s

end Sys2Proof.Machine
end

