-- ==== Sys2Proof/Machine/HostOps.lean ====
section
/-! DEFINITION. The five host operations (43_host_and_nop.md R200 to R206), reset, and how a step picks what happens
next. -/

namespace Sys2Proof.Machine

/-- EXEC(w) (R206): an illegal word raises ILLEGAL (60_exceptions.md R223), a legal one runs its command. -/
def execWord (w : Word) (s : State) : Host.Outcome State Fault Refusal :=
  match decode w with
  | .error _ => raise .illegal s
  | .ok i => exec i s

/-- What HRD(r) returns (R201). -/
def regRead (s : State) : (r : Nat) → Word
  | 0 => 0
  | 1 => statusWord s.err
  | 2 => s.len
  | 3 => s.fidx
  | 4 => s.cap
  | _ => 0

/-- HWR(r, v) (R202): register 0 executes, LEN and FIDX store, every other number is ignored. -/
def regWrite (r : Nat) (v : Word) (s : State) : Host.Outcome State Fault Refusal :=
  match r with
  | 0 => execWord v s
  | 2 => .next { s with len := v }
  | 3 => .next { s with fidx := v }
  | _ => .next s

/-- What HRB(b, i) returns: 0 when the index is not below NMAX (R203, 20_memory.md R66). -/
def hostBufRead (s : State) (b : Buf) (i : Nat) : Byte := if i < s.cap.toNat then bufRead s b i else 0

/-- HWB(b, i, v): dropped when the index is not below NMAX (R204, 20_memory.md R66). -/
def hostBufWrite (b : Buf) (i : Nat) (v : Byte) (s : State) : State :=
  if i < s.cap.toNat then s.withBuf b (Memory.set (s.buf b) i v) else s

/-- What HRO(i) returns: 0 when the index is not below NMAX (R205, 20_memory.md R66). -/
def hostOrdRead (s : State) (i : Nat) : Word := if i < s.cap.toNat then ordRead s i else 0

/-- Hand a read's value to the host; the block's own state does not change (20_memory.md R68). -/
def reply (v : Reply) (s : State) : State := { s with replies := s.replies ++ [v] }

/-- One host operation, indivisible (R200). -/
def hostOp (o : HostOp) (s : State) : Host.Outcome State Fault Refusal :=
  match o with
  | .hrd r => .next (reply (.word (regRead s r)) s)
  | .hwr r v => regWrite r v s
  | .hrb b i => .next (reply (.byte (hostBufRead s b i)) s)
  | .hwb b i v => .next (hostBufWrite b i v s)
  | .hro i => .next (reply (.word (hostOrdRead s i)) s)

/-- One event: a host operation or the reset (R200, 70_reset_and_hazards.md R250). -/
def event (e : HostEvent) (s : State) : Host.Outcome State Fault Refusal :=
  match e with
  | .op o => hostOp o s
  | .reset => .next (resetEvent s)

/-- The next event is taken from the front of the inputs; with none to come nothing happens (log entry 2). -/
def takeEvent (s : State) : Host.Outcome State Fault Refusal :=
  match s.inputs with
  | [] => .next s
  | e :: rest => event e { s with inputs := rest }

/-- The state in which the host's next operation is the write of `w` to CMD: the one way a command word reaches the
block (10_state.md R22, R27; 20_memory.md R76). -/
def issueWord (w : Word) (s : State) : State := { s with inputs := .op (.hwr 0 w) :: s.inputs }

end Sys2Proof.Machine
end

