-- ==== Sys2Proof/Machine/Step.lean ====
section
/-! DEFINITION. The step: the architectural step is the host operation (00_scope.md R6; 43_host_and_nop.md R200). -/

namespace Sys2Proof.Machine

/-- One step: the first of the events to come, whole. -/
def step (s : State) : Host.Outcome State Fault Refusal := takeEvent s

/-- The block has no program counter and fetches nothing (10_state.md R27): a command word is the data of a host write
to CMD. So the word is placed as the next host operation. Bits above `nbits` are 0 (log entry 9). -/
def State.withFetchWord (s : State) (nbits w : Nat) : State := issueWord (BitVec.ofNat 32 (w % 2 ^ nbits)) s

end Sys2Proof.Machine
end

