-- ==== Sys2Proof/Machine/Assembler.lean ====
section
/-! DEFINITION. The host's notations: assembler syntax, the pseudo-instructions COMPRESS and EXPAND, host scripts
(30_encoding.md R102 to R104). Nothing here is the block's: each notation comes down to the host operations of R200. -/

namespace Sys2Proof.Machine

/-! ### Pseudo-instructions (R103) -/

/-- A line of a host's program: a command, or one of the two pseudo-instructions. -/
inductive AsmItem where
  | command (i : Instr)
  | compress (b : Buf)
  | expand (b : Buf)
deriving DecidableEq, Repr

/-- The commands an item stands for, in the order they must be issued (R103). -/
def expansion : AsmItem → List Instr
  | .command i => [i]
  | .compress b => [.bwtf b, .mtfe (dstOf b) false]
  | .expand b => [.mtfd b false, .bwti (dstOf b)]

/-- Issue commands one after another with LEN unchanged between them, stopping at the first that ends with
STATUS.ERR != 0 (R103). -/
def issueCommands : List Instr → State → Host.Outcome State Fault Refusal
  | [], s => .next s
  | i :: is, s =>
    match exec i s with
    | .next t => if t.err = okCode then issueCommands is t else .next t
    | .fault f => .fault f
    | .refused r => .refused r

/-- Issue a line of a program. -/
def issueItem (item : AsmItem) (s : State) : Host.Outcome State Fault Refusal := issueCommands (expansion item) s

/-! ### Assembler syntax (R102) -/

/-- The words of a line: blanks separate, a comma is a word of its own (log entry 10). `cur` holds the letters of the
word being read, last one first. -/
def wordsOf : (cur : List Char) → List Char → List (List Char)
  | cur, [] => if cur.isEmpty then [] else [cur.reverse]
  | cur, c :: cs =>
    if c = ' ' ∨ c = '\t' then (if cur.isEmpty then [] else [cur.reverse]) ++ wordsOf [] cs
    else if c = ',' then (if cur.isEmpty then [] else [cur.reverse]) ++ [[',']] ++ wordsOf [] cs
    else wordsOf (c :: cur) cs

/-- The buffer a letter names: A is SRC = 0, B is SRC = 1. -/
def bufOfLetter (w : List Char) : Option Buf :=
  if w = ['A'] then some .bufA else if w = ['B'] then some .bufB else none

/-- The item of a mnemonic with a source buffer and without CONT. -/
def itemOfWord (m : List Char) (b : Buf) : Option AsmItem :=
  if m = ['S', 'O', 'R', 'T'] then some (.command (.sort b))
  else if m = ['B', 'W', 'T', 'F'] then some (.command (.bwtf b))
  else if m = ['B', 'W', 'T', 'I'] then some (.command (.bwti b))
  else if m = ['M', 'T', 'F', 'E'] then some (.command (.mtfe b false))
  else if m = ['M', 'T', 'F', 'D'] then some (.command (.mtfd b false))
  else if m = ['C', 'O', 'M', 'P', 'R', 'E', 'S', 'S'] then some (.compress b)
  else if m = ['E', 'X', 'P', 'A', 'N', 'D'] then some (.expand b)
  else none

/-- The item of a mnemonic with a source buffer and `, C`. -/
def contItemOfWord (m : List Char) (b : Buf) : Option AsmItem :=
  if m = ['M', 'T', 'F', 'E'] then some (.command (.mtfe b true))
  else if m = ['M', 'T', 'F', 'D'] then some (.command (.mtfd b true))
  else none

/-- The items of a line's words: none when they do not follow the syntax, no item for an empty line. -/
def itemsOfWords : List (List Char) → Option (List AsmItem)
  | [] => some []
  | [m] => if m = ['N', 'O', 'P'] then some [.command .nop] else none
  | [m, b] => (bufOfLetter b).bind fun b => (itemOfWord m b).map fun i => [i]
  | [m, b, comma, c] =>
    if comma = [','] ∧ c = ['C'] then (bufOfLetter b).bind fun b => (contItemOfWord m b).map fun i => [i] else none
  | _ => none

/-- One line of assembler; a semicolon starts a comment (R102). -/
def assembleLine (line : List Char) : Option (List AsmItem) :=
  itemsOfWords (wordsOf [] (line.takeWhile (· != ';')))

/-! ### Host scripts (R104) -/

/-- A register of a script line: by name or by number. -/
inductive ScriptReg where
  | CMD
  | STATUS
  | LEN
  | FIDX
  | CAP
  | number (r : Nat)
deriving DecidableEq, Repr

/-- The register number of a name (10_state.md R21). -/
def regNumber : ScriptReg → Nat
  | .CMD => 0
  | .STATUS => 1
  | .LEN => 2
  | .FIDX => 3
  | .CAP => 4
  | .number r => r

/-- A line of a host script (R104). -/
inductive ScriptLine where
  | WR (r : ScriptReg) (v : Word)
  | RD (r : ScriptReg)
  | WB (b : Buf) (i : Nat) (bytes : List Byte)
  | RB (b : Buf) (i count : Nat)
  | RO (i count : Nat)
  | command (i : Instr)
deriving DecidableEq, Repr

/-- The host operations of a script line, in order (R104). -/
def scriptOps : ScriptLine → List HostOp
  | .WR r v => [.hwr (regNumber r) v]
  | .RD r => [.hrd (regNumber r)]
  | .WB b i bytes => bytes.zipIdx.map fun x => .hwb b (i + x.2) x.1
  | .RB b i count => (List.range count).map fun k => .hrb b (i + k)
  | .RO i count => (List.range count).map fun k => .hro (i + k)
  | .command i => [.hwr (regNumber .CMD) (encode i)]

/-- The state in which a host is about to perform a script. -/
def loadScript (lines : List ScriptLine) (s : State) : State :=
  { s with inputs := (lines.flatMap scriptOps).map HostEvent.op ++ s.inputs }

end Sys2Proof.Machine
end

