-- ==== Sys2Proof/Machine/Wire.lean ====
section
/-! DEFINITION. The host's wire formats: the record of a forward transform and the stream of a recoding (20_memory.md R64;
43_host_and_nop.md R210, R211). The block takes no part in them. -/

namespace Sys2Proof.Machine

/-- The 4-byte header that holds FIDX, in WIRE_ORDER (R64). -/
def wireHeader (order : Config.WireOrder) (fidx : Word) : List Byte :=
  let most := [fidx.extractLsb' 24 8, fidx.extractLsb' 16 8, fidx.extractLsb' 8 8, fidx.extractLsb' 0 8]
  match order with
  | .bigEndian => most
  | .littleEndian => most.reverse

/-- The record: the header, immediately followed by the payload (R210). -/
def wireRecord (order : Config.WireOrder) (fidx : Word) (payload : List Byte) : List Byte :=
  wireHeader order fidx ++ payload

/-- What the host emits after a successful BWTF from `src` with block length `n` (R210). -/
def forwardRecord (order : Config.WireOrder) (src : Buf) (n : Nat) (s : State) : List Byte :=
  wireRecord order s.fidx (readBlock s (dstOf src) n)

/-- What the host emits after a successful MTFE or MTFD from `src` with block length `n`: the n output bytes, with no
header (R210; 42_mtf_recoder.md R187). -/
def recodedStream (src : Buf) (n : Nat) (s : State) : List Byte := readBlock s (dstOf src) n

/-- The wire format of a successful command's result, for the commands R210 gives one. `s` is the state the command left
and `n` its block length. -/
def wireStream (order : Config.WireOrder) (i : Instr) (n : Nat) (s : State) : Option (List Byte) :=
  match i with
  | .nop | .sort _ | .bwti _ => none
  | .bwtf src => some (forwardRecord order src n s)
  | .mtfe src _ | .mtfd src _ => some (recodedStream src n s)

/-- The value of a 4-byte header (R64, R211). -/
def headerWord (order : Config.WireOrder) (b0 b1 b2 b3 : Byte) : Word :=
  match order with
  | .bigEndian => b0 ++ (b1 ++ (b2 ++ b3))
  | .littleEndian => b3 ++ (b2 ++ (b1 ++ b0))

/-- Why the host reports a stream itself (R211). -/
inductive HostError where
  /-- The source's FormatError, "payload/header length mismatch": fewer than 4 bytes. -/
  | headerIncomplete
  /-- The payload is longer than CAP; the host reports it itself rather than have VALIDATION raised (log entry 11). -/
  | payloadTooLong
deriving DecidableEq, Repr

/-- The two parts of a stream: the first index and the payload, whose length is n = L - 4 (R211). -/
def parseRecord (order : Config.WireOrder) : List Byte → Except HostError (Word × List Byte)
  | b0 :: b1 :: b2 :: b3 :: payload => .ok (headerWord order b0 b1 b2 b3, payload)
  | _ => .error .headerIncomplete

/-- The host operations that invert a stream with source buffer `src`, on an instance whose CAP is `nmax`: FIDX, LEN,
the payload bytes, then BWTI (R211). -/
def inverseOps (order : Config.WireOrder) (nmax : Nat) (src : Buf) (stream : List Byte) :
    Except HostError (List HostOp) :=
  match parseRecord order stream with
  | .error e => .error e
  | .ok (fidx, payload) =>
    if nmax < payload.length then .error .payloadTooLong
    else
      .ok ([.hwr 3 fidx, .hwr 2 (BitVec.ofNat 32 payload.length)]
        ++ payload.zipIdx.map (fun x => HostOp.hwb src x.2 x.1)
        ++ [.hwr 0 (encode (.bwti src))])

end Sys2Proof.Machine
end

