-- ==== Sys2Proof/Safety.lean ====
section
/-! DEFINITION. What a safe run is, in the terms the claims use: a step goes on, and the state keeps the invariant. -/

namespace Sys2Proof.Machine

/-- The step went on: no fault and no refusal. -/
def goesOn (o : Host.Outcome State Fault Refusal) : Prop := ∃ t, o = .next t

/-- MORDER and MRANK are mutually inverse, so both are permutations of 0..255 (10_state.md R33). -/
def MtfTables.inverse (t : MtfTables) : Prop :=
  (∀ r : Byte, t.mrank[(t.morder[r.toNat]).toNat] = r) ∧ (∀ c : Byte, t.morder[(t.mrank[c.toNat]).toNat] = c)

/-! ### Blocks -/

/-- S = SRCBUF[0..n) at the start of a command, n = LEN (30_encoding.md R99). -/
def State.block (s : State) (b : Buf) : List Byte := readBlock s b s.len.toNat

/-- ORD[0..n) as a list of offsets. -/
def State.order (s : State) (n : Nat) : List Nat := (readOrd s n).map BitVec.toNat

/-! ### The order of the rotations -/

/-- `o` is the permutation of [0, n) that 40_suffix_sorter.md R121 describes: sorted by rotation, ties by ascending
offset. -/
def IsOrder (S : List Byte) (o : List Nat) : Prop :=
  o.Perm (List.range S.length) ∧ ∀ i j, i < j → j < S.length → rotKeyLt S (o.getD i 0) (o.getD j 0)

/-- `o` meets the source's weaker contract of R136: a permutation of [0, n), no later rotation smaller than an earlier
one. -/
def IsWeakOrder (S : List Byte) (o : List Nat) : Prop :=
  o.Perm (List.range S.length) ∧ ∀ i j, i < j → j < S.length → ¬ lexLt (rot S (o.getD j 0)) (rot S (o.getD i 0))

/-! ### The inverse transform -/

/-- cnt[v]: the number of positions of P that hold v (41_bwt_transformer.md R162). -/
def cntOf (P : List Byte) (v : Nat) : Nat := (P.map BitVec.toNat).count v

/-- base[v] = cnt[0] + ... + cnt[v-1] (R162). -/
def baseOf (P : List Byte) (v : Nat) : Nat := ((List.range v).map (cntOf P)).sum

/-- q_v: the positions of P that hold v, in increasing order (R163). -/
def queueOf (P : List Byte) (v : Nat) : List Nat := (List.range P.length).filter fun j => (P.getD j 0).toNat = v

/-- F of R162: F[i] = v for every i with base[v] <= i < base[v] + cnt[v]. -/
def IsFirstColumn (P F : List Byte) : Prop :=
  F.length = P.length ∧ ∀ v i, v < 256 → baseOf P v ≤ i → i < baseOf P v + cntOf P v → (F.getD i 0).toNat = v

/-- `next` of R163: next[base[v] + t] = q_v[t] for every t in [0, cnt[v]). -/
def IsLfMap (P : List Byte) (next : List Nat) : Prop :=
  next.length = P.length ∧ ∀ v t, v < 256 → t < cntOf P v → next.getD (baseOf P v + t) 0 = (queueOf P v).getD t 0

/-- pos_k of R161: pos_0 = fi, pos_(k+1) = next[pos_k]. -/
def posAt (next : List Nat) (fi : Nat) : Nat → Nat
  | 0 => fi
  | k + 1 => next.getD (posAt next fi k) 0

/-! ### The move-to-front recoder as one list -/

/-- Encoding with one list of the byte values in rank order: emit the place of `c`, then move `c` to the front
(00_scope.md, glossary: MTF). -/
def listEncode : (order : List Byte) → List Byte → List Nat × List Byte
  | order, [] => ([], order)
  | order, c :: cs =>
    let r := listEncode (c :: order.erase c) cs
    (order.idxOf c :: r.1, r.2)

/-- Decoding with one list: emit the value at place `p`, then move it to the front. -/
def listDecode : (order : List Byte) → List Byte → List Byte × List Byte
  | order, [] => ([], order)
  | order, p :: ps =>
    let c := order.getD p.toNat 0
    let r := listDecode (c :: order.erase c) ps
    (c :: r.1, r.2)

/-! ### Errors -/

/-- The code EXEC(w) leaves in STATUS.ERR, by the order of the checks in 60_exceptions.md R225. -/
def priorityCode (w : Word) (s : State) : BitVec 4 :=
  if w ∉ legalWords then 3
  else if w = 0 then 0
  else if s.cap.toNat < s.len.toNat then 1
  else if (w = 0x02 ∨ w = 0x12) ∧ s.len = 0 then 1
  else if (w = 0x03 ∨ w = 0x13) ∧ s.len.toNat ≤ s.fidx.toNat then 2
  else 0

/-! ### What a command reads -/

/-- The buffer a command reads (30_encoding.md R94, R99). -/
def readsBuf : Instr → Buf → Prop
  | .nop, _ => False
  | .sort src, b | .bwtf src, b | .bwti src, b | .mtfe src _, b | .mtfd src _, b => b = src

/-! ### What a command leaves alone -/

/-- The registers no command writes, and the model's own fields. -/
def KeepsInputs (s t : State) : Prop :=
  t.len = s.len ∧ t.cap = s.cap ∧ t.resets = s.resets ∧ t.inputs = s.inputs ∧ t.replies = s.replies

/-- Every element of a buffer from `n` on reads as before. -/
def KeepsBufFrom (n : Nat) (b : Buf) (s t : State) : Prop := ∀ i, n ≤ i → bufRead t b i = bufRead s b i

/-- Every element of ORD from `n` on reads as before. -/
def KeepsOrdFrom (n : Nat) (s t : State) : Prop := ∀ i, n ≤ i → ordRead t i = ordRead s i

/-- The scratch of BT is as before (10_state.md R34). -/
def KeepsBtScratch (s t : State) : Prop := t.fcol = s.fcol ∧ t.nxt = s.nxt ∧ t.cnt = s.cnt ∧ t.head = s.head

/-- The scratch of SS is as before (10_state.md R35). -/
def KeepsSsScratch (s t : State) : Prop := t.stack = s.stack ∧ t.sp = s.sp

/-- The state with every piece of scratch put aside: two states with the same value agree on all that a program can
observe (10_state.md R36). -/
def State.noScratch (s : State) : State :=
  { s with fcol := [], nxt := [], cnt := [], head := [], stack := [], sp := 0 }

/-! ### The invariant -/

/-- The invariant of an instance. -/
structure State.Inv (s : State) : Prop where
  /-- 1 <= NMAX <= 2^31 - 1 (00_scope.md R7). -/
  capLow : 1 ≤ s.cap.toNat
  capHigh : s.cap.toNat ≤ Config.nmaxBound
  /-- Codes 4 to 15 are never produced (60_exceptions.md R220). -/
  errLegal : s.err.toNat ≤ 3
  /-- Every memory is in canonical form and holds elements 0..size-1 only (20_memory.md R60). -/
  bufAWf : s.bufA.wf s.cap.toNat = true
  bufBWf : s.bufB.wf s.cap.toNat = true
  ordWf : s.ord.wf s.cap.toNat = true
  fcolWf : s.fcol.wf s.cap.toNat = true
  nxtWf : s.nxt.wf s.cap.toNat = true
  cntWf : s.cnt.wf Config.alpha = true
  headWf : s.head.wf Config.alpha = true
  /-- STACK never outgrows STKCAP (40_suffix_sorter.md R134). -/
  stackWf : s.stack.wf (Config.stkcap s.cap.toNat) = true
  /-- The work stack is empty between commands (10_state.md R35). -/
  spZero : s.sp = 0
  /-- The MTF tables are mutually inverse (10_state.md R33). -/
  tablesInverse : s.tables.inverse

end Sys2Proof.Machine
end

