-- ==== Sys2Proof/Certificates/Slice0/Obligations.lean ====
section
/-! DEFINITION. The statements for the provers, in the order of the spec's files: encoding, state, the host's operations,
errors, NOP, SORT, BWTF, BWTI, MTFE and MTFD, the host's duties, and the rules about the whole machine. -/

open Sys2Proof Sys2Proof.Machine

/-! ### Encoding -/

/-- One word of each command, as the table of 30_encoding.md R96 lists it, and one illegal word for each of the four
reasons R97 gives. -/
def Obligations.SampleWordsDecode : Prop :=
  decode 0x00000000 = .ok .nop ∧ decode 0x00000011 = .ok (.sort .bufB) ∧ decode 0x00000002 = .ok (.bwtf .bufA) ∧
    decode 0x00000013 = .ok (.bwti .bufB) ∧ decode 0x00000024 = .ok (.mtfe .bufA true) ∧
    decode 0x00000015 = .ok (.mtfd .bufB false) ∧ decode 0x00000006 = .error .reservedOp ∧
    decode 0x00000040 = .error .zeroFieldSet ∧ decode 0x00000021 = .error .contOutsideMtf ∧
    decode 0x00000010 = .error .operandOnNop

/-- 30_encoding.md R96: the fifteen legal words, what each stands for, and that no other word is legal. -/
def Obligations.DecodeAcceptsExactlyTheLegalWords : Prop :=
  (∀ w : Word, (∃ i, decode w = .ok i) ↔
    w ∈ ([0x00000000, 0x00000001, 0x00000011, 0x00000002, 0x00000012, 0x00000003, 0x00000013, 0x00000004,
      0x00000014, 0x00000024, 0x00000034, 0x00000005, 0x00000015, 0x00000025, 0x00000035] : List Word)) ∧
    legalWords.map decode =
      [.ok .nop, .ok (.sort .bufA), .ok (.sort .bufB), .ok (.bwtf .bufA), .ok (.bwtf .bufB), .ok (.bwti .bufA),
        .ok (.bwti .bufB), .ok (.mtfe .bufA false), .ok (.mtfe .bufB false), .ok (.mtfe .bufA true),
        .ok (.mtfe .bufB true), .ok (.mtfd .bufA false), .ok (.mtfd .bufB false), .ok (.mtfd .bufA true),
        .ok (.mtfd .bufB true)]

/-- Decode and encode agree, in both directions (30_encoding.md R101): every well-formed command's word decodes to it, and
a word that decodes to a command is that command's word, so no bit of a word is ignored (R95). -/
def Obligations.DecodeAndEncodeAgree : Prop :=
  (∀ i : Instr, i.WellFormed = true → decode (encode i) = .ok i) ∧
    ∀ (w : Word) (i : Instr), decode w = .ok i → encode i = w ∧ i.WellFormed = true

/-! ### The step -/

/-- When the next host operation is the write of a legal word to CMD, the step is exec of its command, and all that the
step adds is that the operation is taken from the inputs (10_state.md R22, 43_host_and_nop.md R206; the list of inputs is
the model's, log entries 2 and 9). -/
def Obligations.StepRunsDecodedCommand : Prop :=
  (∀ (w : Word) (i : Instr) (rest : List HostEvent) (s : State), decode w = .ok i →
    s.inputs = .op (.hwr 0 w) :: rest → step s = exec i { s with inputs := rest }) ∧
    ∀ (w : Nat) (i : Instr) (s : State), w < 2 ^ 32 → decode (BitVec.ofNat 32 w) = .ok i →
      step (s.withFetchWord 32 w) = exec i s

/-- No step stops: whatever the state and the next event, and whatever the command, there is a next state
(43_host_and_nop.md R212, 70_reset_and_hazards.md R261; log entry 7). -/
def Obligations.EveryStepGoesOn : Prop :=
  (∀ s : State, goesOn (step s)) ∧ ∀ (i : Instr) (s : State), goesOn (exec i s)

/-! ### The host's operations -/

/-- What HRD returns for every register number, and that it changes nothing (43_host_and_nop.md R201; the list of replies
is the model's, log entry 3). -/
def Obligations.RegisterReads : Prop :=
  ∀ (r : Nat) (s : State), ∃ v : Word, hostOp (.hrd r) s = .next { s with replies := s.replies ++ [.word v] } ∧
    (r = 0 → v = 0) ∧ (r = 1 → v.toNat = s.err.toNat) ∧ (r = 2 → v = s.len) ∧ (r = 3 → v = s.fidx) ∧
    (r = 4 → v = s.cap) ∧ (5 ≤ r → v = 0)

/-- 43_host_and_nop.md R202: what HWR does for every register number. -/
def Obligations.RegisterWrites : Prop :=
  ∀ (v : Word) (s : State), hostOp (.hwr 0 v) s = execWord v s ∧ hostOp (.hwr 2 v) s = .next { s with len := v } ∧
    hostOp (.hwr 3 v) s = .next { s with fidx := v } ∧
    ∀ r : Nat, r = 1 ∨ 4 ≤ r → hostOp (.hwr r v) s = .next s

/-- 43_host_and_nop.md R204: what HWB does. Below NMAX the one element takes the value, every other element of both
buffers and every other field keeps its own; at or above NMAX nothing changes. -/
def Obligations.BufferWrites : Prop :=
  ∀ (b : Buf) (i : Nat) (v : Byte) (s : State),
    (i < s.cap.toNat → ∃ t, hostOp (.hwb b i v) s = .next t ∧ bufRead t b i = v ∧
      (∀ (c : Buf) (j : Nat), (c, j) ≠ (b, i) → bufRead t c j = bufRead s c j) ∧
      { t with bufA := s.bufA, bufB := s.bufB } = s) ∧
    (s.cap.toNat ≤ i → hostOp (.hwb b i v) s = .next s)

/-- HRB and HRO return the element, 0 at or above NMAX, and change nothing (43_host_and_nop.md R203, R205;
20_memory.md R66; the list of replies is the model's, log entry 3). -/
def Obligations.BufferAndOrderReads : Prop :=
  ∀ (i : Nat) (s : State),
    (∀ b : Buf, (i < s.cap.toNat →
        hostOp (.hrb b i) s = .next { s with replies := s.replies ++ [.byte (bufRead s b i)] }) ∧
      (s.cap.toNat ≤ i → hostOp (.hrb b i) s = .next { s with replies := s.replies ++ [.byte 0] })) ∧
    (i < s.cap.toNat → hostOp (.hro i) s = .next { s with replies := s.replies ++ [.word (ordRead s i)] }) ∧
    (s.cap.toNat ≤ i → hostOp (.hro i) s = .next { s with replies := s.replies ++ [.word 0] })

/-- A host that writes a list of bytes to consecutive elements and then reads them back gets exactly those bytes, in
order: each operation takes effect completely before the next (20_memory.md R73). -/
def Obligations.WrittenBytesReadBack : Prop :=
  ∀ (b : Buf) (i : Nat) (bytes : List Byte) (s : State), i + bytes.length ≤ s.cap.toNat → s.inputs = [] →
    ∃ t, Host.Core.run core (2 * bytes.length) (loadScript [.WB b i bytes, .RB b i bytes.length] s) = .next t ∧
      t.replies = s.replies ++ bytes.map Reply.byte ∧ t.inputs = []

/-- No host operation but a CMD write reaches ORD, the MTF tables, the scratch, STATUS or CAP (43_host_and_nop.md
R200, 20_memory.md R60, R68). -/
def Obligations.HostReachesOnlyItsSpaces : Prop :=
  ∀ (o : HostOp) (s t : State), (∀ v, o ≠ .hwr 0 v) → hostOp o s = .next t →
    t.ord = s.ord ∧ t.tables = s.tables ∧ KeepsBtScratch s t ∧ KeepsSsScratch s t ∧ t.err = s.err ∧ t.cap = s.cap ∧
      t.resets = s.resets ∧ t.inputs = s.inputs

/-- 10_state.md R26: CAP reads as NMAX, a write to it is ignored, and nothing changes it: no host operation, no command,
no reset. -/
def Obligations.CapacityIsHardwired : Prop :=
  (∀ s : State, regRead s 4 = s.cap) ∧ (∀ (v : Word) (s : State), hostOp (.hwr 4 v) s = .next s) ∧
    (∀ (nmax : Word) (gen : Nat), (State.resetOf nmax gen).cap = nmax) ∧
    ∀ (e : HostEvent) (s t : State), event e s = .next t → t.cap = s.cap

/-! ### Errors -/

/-- 60_exceptions.md R223: an illegal word raises ILLEGAL, only an illegal word does, and nothing but STATUS.ERR
changes. -/
def Obligations.IllegalRaised : Prop :=
  ∀ (w : Word) (s : State), ∃ t, execWord w s = .next t ∧ (t.err = 3 ↔ w ∉ legalWords) ∧
    (w ∉ legalWords → t = { s with err := 3 })

/-- 60_exceptions.md R221: when VALIDATION is raised, and only then. -/
def Obligations.ValidationRaised : Prop :=
  ∀ (i : Instr) (s : State), ∃ t, exec i s = .next t ∧
    (t.err = 1 ↔ (i ≠ .nop ∧ s.cap.toNat < s.len.toNat) ∨ ((∃ b, i = .bwtf b) ∧ s.len = 0)) ∧
    (t.err = 1 → t = { s with err := 1 })

/-- 60_exceptions.md R222: when FORMAT is raised, and only then. -/
def Obligations.FormatRaised : Prop :=
  ∀ (i : Instr) (s : State), ∃ t, exec i s = .next t ∧
    (t.err = 2 ↔ (∃ b, i = .bwti b) ∧ s.len.toNat ≤ s.cap.toNat ∧ s.len.toNat ≤ s.fidx.toNat) ∧
    (t.err = 2 → t = { s with err := 2 })

/-- 60_exceptions.md R225: nothing is checked when the host writes LEN, FIDX or a buffer, and the code a CMD write leaves
is the one of the first check that fails, in the order that `priorityCode` writes out. -/
def Obligations.ErrorCodeFollowsPriority : Prop :=
  (∀ (w : Word) (s : State), ∃ t, execWord w s = .next t ∧ t.err = priorityCode w s) ∧
    ∀ (v : Word) (b : Buf) (i : Nat) (x : Byte) (s : State), hostOp (.hwr 2 v) s = .next { s with len := v } ∧
      hostOp (.hwr 3 v) s = .next { s with fidx := v } ∧ ∃ t, hostOp (.hwb b i x) s = .next t ∧ t.err = s.err

/-- 60_exceptions.md R226: a command that ends with an error has changed STATUS.ERR and nothing else; raising an error is
exactly that. -/
def Obligations.FailedCommandChangesOnlyStatus : Prop :=
  (∀ (e : CoreError) (s : State), raise e s = .next { s with err := errorCode e }) ∧
    ∀ (w : Word) (s t : State), execWord w s = .next t → t.err ≠ 0 → t = { s with err := t.err }

/-- STATUS is overwritten by every command and read by none: a command does the same whatever STATUS.ERR was, and a
failed command issued again fails with the same code (60_exceptions.md R228, 10_state.md R29). -/
def Obligations.StatusIsOverwrittenAndNeverRead : Prop :=
  (∀ (w : Word) (e : BitVec 4) (s : State), execWord w { s with err := e } = execWord w s) ∧
    ∀ (w : Word) (s t : State), execWord w s = .next t → t.err ≠ 0 → execWord w t = .next t

/-! ### NOP -/

/-- 43_host_and_nop.md R207: NOP is the word 0, samples nothing, sets STATUS.ERR to 0 and changes nothing else. -/
def Obligations.NopClearsStatus : Prop :=
  decode 0x00000000 = .ok .nop ∧ ∀ s : State, exec .nop s = .next { s with err := 0 }

/-! ### SORT -/

/-- 40_suffix_sorter.md R121: SORT completes for every LEN up to NMAX, and ORD[0..n) is then the one permutation that
lists the offsets by (rotation, offset). -/
def Obligations.SortOrdersRotations : Prop :=
  ∀ (b : Buf) (s : State), s.len.toNat ≤ s.cap.toNat → ∃ t, exec (.sort b) s = .next t ∧ t.err = 0 ∧
    IsOrder (s.block b) (t.order s.len.toNat) ∧ ∀ o, IsOrder (s.block b) o → o = t.order s.len.toNat

/-- The refinement of 40_suffix_sorter.md R131: SORT_MICRO ends (R130: more rounds of the main loop change nothing) with
SP = 0 and with ORD[0..n) the one permutation of R121, whatever STACK held before (R135), and it writes STACK below
max(1, floor(n / 2)) only (R134). -/
def Obligations.SortMicroRefinesOrder : Prop :=
  ∀ (S : List Byte) (gen : Nat) (stack : Memory StackEntry), S.length < 2 ^ 32 →
    (∀ rounds, S.length * (S.length + 1) ≤ rounds →
      sortLoop S gen rounds (sortStart S stack) = sortMicro S gen stack) ∧
    (sortMicro S gen stack).sp = 0 ∧ IsOrder S (sortMicro S gen stack).ord ∧
    (∀ o, IsOrder S o → (sortMicro S gen stack).ord = o) ∧
    ∀ size, Config.stkcap S.length ≤ size → stack.wf size = true → (sortMicro S gen stack).stack.wf size = true

/-- What SORT leaves unchanged: both buffers, ORD from n on, LEN, FIDX, CAP, the MTF tables, the scratch of BT
(40_suffix_sorter.md R133; that the scratch keeps its contents is the model's, log entry 5); after a success SP is 0
(10_state.md R35). -/
def Obligations.SortFrame : Prop :=
  ∀ (b : Buf) (s t : State), exec (.sort b) s = .next t → KeepsInputs s t ∧ t.fidx = s.fidx ∧ t.tables = s.tables ∧
    (∀ (c : Buf) (i : Nat), bufRead t c i = bufRead s c i) ∧ KeepsOrdFrom s.len.toNat s t ∧ KeepsBtScratch s t ∧
    (t.err = 0 → t.sp = 0)

/-- SORT of no bytes and of one byte (40_suffix_sorter.md R123). -/
def Obligations.SortOfShortBlocks : Prop :=
  ∀ (b : Buf) (s : State), (s.len = 0 → exec (.sort b) s = .next { s with err := 0, sp := 0 }) ∧
    (s.len = 1 → 1 ≤ s.cap.toNat → ∃ t, exec (.sort b) s = .next t ∧ t.err = 0 ∧ ordRead t 0 = 0)

/-- SORT of equal bytes leaves the offsets in ascending order (40_suffix_sorter.md R123): the tie-break of R121 alone
decides. -/
def Obligations.SortOfEqualBytesIsIdentity : Prop :=
  ∀ (b : Buf) (v : Byte) (s : State), s.len.toNat ≤ s.cap.toNat → (∀ i, i < s.len.toNat → bufRead s b i = v) →
    ∃ t, exec (.sort b) s = .next t ∧ t.err = 0 ∧ ∀ i, i < s.len.toNat → (ordRead t i).toNat = i

/-! ### BWTF -/

/-- 41_bwt_transformer.md R151: BWTF completes for every LEN from 1 to NMAX; ORD[0..n) is the order of R121, FIDX the
row of offset 0, DSTBUF[0..n) the payload, and SRCBUF is not modified. -/
def Obligations.BwtfResult : Prop :=
  ∀ (b : Buf) (s : State), 1 ≤ s.len.toNat → s.len.toNat ≤ s.cap.toNat → ∃ t, exec (.bwtf b) s = .next t ∧ t.err = 0 ∧
    IsOrder (s.block b) (t.order s.len.toNat) ∧
    (∀ i, i < s.len.toNat → ((t.order s.len.toNat).getD i 0 = 0 ↔ i = t.fidx.toNat)) ∧
    t.fidx.toNat < s.len.toNat ∧
    (∀ i, i < s.len.toNat → bufRead t (dstOf b) i =
      (s.block b).getD (((t.order s.len.toNat).getD i 0 + s.len.toNat - 1) % s.len.toNat) 0) ∧
    ∀ i, bufRead t b i = bufRead s b i

/-- What BWTF leaves unchanged: SRCBUF, DSTBUF from n on, ORD from n on, LEN, CAP, the MTF tables, the scratch of BT
(41_bwt_transformer.md R156; that the scratch keeps its contents is the model's, log entry 5); after a success SP is 0
(10_state.md R35). -/
def Obligations.BwtfFrame : Prop :=
  ∀ (b : Buf) (s t : State), exec (.bwtf b) s = .next t → KeepsInputs s t ∧ t.tables = s.tables ∧
    (∀ i, bufRead t b i = bufRead s b i) ∧ KeepsBufFrom s.len.toNat (dstOf b) s t ∧ KeepsOrdFrom s.len.toNat s t ∧
    KeepsBtScratch s t ∧ (t.err = 0 → t.sp = 0)

/-- The four properties of 41_bwt_transformer.md R157. -/
def Obligations.BwtfPayloadProperties : Prop :=
  ∀ (b : Buf) (s : State), 1 ≤ s.len.toNat → s.len.toNat ≤ s.cap.toNat → ∃ t, exec (.bwtf b) s = .next t ∧ t.err = 0 ∧
    (t.block (dstOf b)).Perm (s.block b) ∧ t.fidx.toNat < s.len.toNat ∧
    rot (s.block b) ((t.order s.len.toNat).getD t.fidx.toNat 0) = s.block b ∧
    ∀ i, i < s.len.toNat → bufRead t (dstOf b) i =
      (rot (s.block b) ((t.order s.len.toNat).getD i 0)).getD (s.len.toNat - 1) 0

/-- FIDX is the number of rotations that are smaller than the original (41_bwt_transformer.md R154). -/
def Obligations.FidxCountsSmallerRotations : Prop :=
  ∀ (b : Buf) (s : State), 1 ≤ s.len.toNat → s.len.toNat ≤ s.cap.toNat → ∃ t, exec (.bwtf b) s = .next t ∧ t.err = 0 ∧
    t.fidx.toNat =
      (List.range s.len.toNat).countP fun k => decide (lexLt (rot (s.block b) k) (rot (s.block b) 0))

/-- The payload does not depend on how ties are broken: every order that meets the source's weaker contract
(40_suffix_sorter.md R136) gives the bytes BWTF stores, and lists the same rotations (41_bwt_transformer.md R153). -/
def Obligations.PayloadIndependentOfTieBreak : Prop :=
  ∀ (b : Buf) (s : State) (o : List Nat), 1 ≤ s.len.toNat → s.len.toNat ≤ s.cap.toNat → IsWeakOrder (s.block b) o →
    ∃ t, exec (.bwtf b) s = .next t ∧ t.err = 0 ∧
      (∀ i, i < s.len.toNat → bufRead t (dstOf b) i =
        (s.block b).getD ((o.getD i 0 + s.len.toNat - 1) % s.len.toNat) 0) ∧
      o.map (rot (s.block b)) = (t.order s.len.toNat).map (rot (s.block b))

/-! ### BWTI -/

/-- 41_bwt_transformer.md R161: BWTI completes whenever FIDX < LEN <= NMAX, whatever the payload, and DSTBUF[k] is
F[pos_k] for the F of R162 and the `next` of R163, which exist and are the only ones. -/
def Obligations.BwtiResult : Prop :=
  ∀ (b : Buf) (s : State), s.fidx.toNat < s.len.toNat → s.len.toNat ≤ s.cap.toNat →
    ∃ t F next, exec (.bwti b) s = .next t ∧ t.err = 0 ∧ IsFirstColumn (s.block b) F ∧ IsLfMap (s.block b) next ∧
      (∀ F' next', IsFirstColumn (s.block b) F' → IsLfMap (s.block b) next' → F' = F ∧ next' = next) ∧
      ∀ k, k < s.len.toNat → bufRead t (dstOf b) k = F.getD (posAt next s.fidx.toNat k) 0

/-- What BWTI leaves unchanged: SRCBUF, DSTBUF from n on, ORD, LEN, FIDX, CAP, the MTF tables, the scratch of SS
(41_bwt_transformer.md R167; that the scratch keeps its contents is the model's, log entry 5). -/
def Obligations.BwtiFrame : Prop :=
  ∀ (b : Buf) (s t : State), exec (.bwti b) s = .next t → KeepsInputs s t ∧ t.fidx = s.fidx ∧ t.tables = s.tables ∧
    (∀ i, bufRead t b i = bufRead s b i) ∧ KeepsBufFrom s.len.toNat (dstOf b) s t ∧
    (∀ i, ordRead t i = ordRead s i) ∧ KeepsSsScratch s t

/-- What the micro-sequence of BWTI builds on its way (41_bwt_transformer.md R162 to R165, R170): FCOL is the payload
sorted, NEXT a permutation of [0, n) with P[NEXT[i]] = FCOL[i], CNT the counts, and HEAD ends one past each value's
queue. It is about the micro-sequence, not about what the scratch holds after the command. -/
def Obligations.BwtiMicroSequenceBuildsColumnAndMap : Prop :=
  ∀ (P : List Byte) (fi : Nat), (inverseMicro P fi).fcol.Perm P ∧
    (inverseMicro P fi).fcol.Pairwise (fun x y => x.toNat ≤ y.toNat) ∧
    (inverseMicro P fi).nxt.Perm (List.range P.length) ∧
    (∀ i, i < P.length → P.getD ((inverseMicro P fi).nxt.getD i 0) 0 = (inverseMicro P fi).fcol.getD i 0) ∧
    ∀ v, v < 256 → (inverseMicro P fi).cnt.getD v 0 = cntOf P v ∧
      (inverseMicro P fi).head.getD v 0 = baseOf P v + cntOf P v

/-- 41_bwt_transformer.md R168: BWTF and then BWTI from the payload's buffer gives back the block. `t'` is any state in
which LEN, FIDX, the capacity and the payload are as BWTF left them: the state `t` itself, or one that other host
operations have led to since. -/
def Obligations.RoundTripBwt : Prop :=
  ∀ (b : Buf) (s : State), 1 ≤ s.len.toNat → s.len.toNat ≤ s.cap.toNat →
    ∃ t, exec (.bwtf b) s = .next t ∧ t.err = 0 ∧
      ∀ t' : State, t'.len = t.len → t'.fidx = t.fidx → t'.cap = t.cap → t'.block (dstOf b) = t.block (dstOf b) →
        ∃ u, exec (.bwti (dstOf b)) t' = .next u ∧ u.err = 0 ∧ u.block b = s.block b

/-- BWTI of a payload of BWTF from any other first index in range gives the rotation that row holds
(41_bwt_transformer.md R173). -/
def Obligations.OtherFirstIndexGivesRotation : Prop :=
  ∀ (b : Buf) (s : State), 1 ≤ s.len.toNat → s.len.toNat ≤ s.cap.toNat →
    ∃ t, exec (.bwtf b) s = .next t ∧ t.err = 0 ∧
      ∀ t' : State, t'.len = t.len → t'.cap = t.cap → t'.block (dstOf b) = t.block (dstOf b) →
        t'.fidx.toNat < t.len.toNat → ∃ u, exec (.bwti (dstOf b)) t' = .next u ∧ u.err = 0 ∧
          u.block b = rot (s.block b) ((t.order s.len.toNat).getD t'.fidx.toNat 0)

/-- BWTI gives back the block for every tied first index: the m smaller rotations come first, and the rows that follow
them, as many as there are rotations equal to the block, all hold it (41_bwt_transformer.md R169, R154). -/
def Obligations.TiedFirstIndexInverts : Prop :=
  ∀ (b : Buf) (s : State) (m ties : Nat), 1 ≤ s.len.toNat → s.len.toNat ≤ s.cap.toNat →
    m = (List.range s.len.toNat).countP (fun k => decide (lexLt (rot (s.block b) k) (s.block b))) →
    ties = (List.range s.len.toNat).countP (fun k => decide (rot (s.block b) k = s.block b)) →
    ∃ t, exec (.bwtf b) s = .next t ∧ t.err = 0 ∧
      ∀ t' : State, t'.len = t.len → t'.cap = t.cap → t'.block (dstOf b) = t.block (dstOf b) →
        m ≤ t'.fidx.toNat → t'.fidx.toNat < m + ties →
          ∃ u, exec (.bwti (dstOf b)) t' = .next u ∧ u.err = 0 ∧ u.block b = s.block b

/-! ### MTFE and MTFD -/

/-- 42_mtf_recoder.md R183: what FRONT(c) does to tables that meet the invariant of 10_state.md R33. -/
def Obligations.FrontMovesToFront : Prop :=
  ∀ (t : MtfTables) (c : Byte), t.inverse → (front t c).morder[0] = c ∧
    (∀ r, (h : r < 256) → 1 ≤ r → r ≤ (t.mrank[c.toNat]).toNat → (front t c).morder[r] = t.morder[r - 1]) ∧
    (∀ r, (h : r < 256) → (t.mrank[c.toNat]).toNat < r → (front t c).morder[r] = t.morder[r]) ∧
    (front t c).inverse ∧ (t.mrank[c.toNat] = 0 → front t c = t)

/-- 42_mtf_recoder.md R187 with R185: MTFE completes for every LEN up to NMAX; with T 0 the tables it starts from (R182)
and T (i + 1) those after step i, DSTBUF[i] is the rank of SRCBUF[i] in T i, and the tables end as T n. -/
def Obligations.MtfeResult : Prop :=
  ∀ (b : Buf) (c : Bool) (s : State), s.len.toNat ≤ s.cap.toNat →
    ∃ (t : State) (T : Nat → MtfTables), exec (.mtfe b c) s = .next t ∧ t.err = 0 ∧
      (c = false → T 0 = MtfTables.identity) ∧ (c = true → T 0 = s.tables) ∧
      (∀ i, i < s.len.toNat → bufRead t (dstOf b) i = (T i).mrank[(bufRead s b i).toNat] ∧
        T (i + 1) = front (T i) (bufRead s b i)) ∧
      t.tables = T s.len.toNat

/-- 42_mtf_recoder.md R188 with R186: MTFD completes for every LEN up to NMAX; with T 0 the tables it starts from (R182)
and T (i + 1) those after step i, DSTBUF[i] is the value at rank SRCBUF[i] in T i, that value moves to the front, and the
tables end as T n. -/
def Obligations.MtfdResult : Prop :=
  ∀ (b : Buf) (c : Bool) (s : State), s.len.toNat ≤ s.cap.toNat →
    ∃ (t : State) (T : Nat → MtfTables), exec (.mtfd b c) s = .next t ∧ t.err = 0 ∧
      (c = false → T 0 = MtfTables.identity) ∧ (c = true → T 0 = s.tables) ∧
      (∀ i, i < s.len.toNat → bufRead t (dstOf b) i = (T i).morder[(bufRead s b i).toNat] ∧
        T (i + 1) = front (T i) (bufRead t (dstOf b) i)) ∧
      t.tables = T s.len.toNat

/-- What MTFE and MTFD leave unchanged: SRCBUF, DSTBUF from n on, ORD, LEN, FIDX, CAP, all the scratch
(42_mtf_recoder.md R190; that the scratch keeps its contents is the model's, log entry 5). -/
def Obligations.MtfFrame : Prop :=
  ∀ (b : Buf) (c : Bool) (s t : State), exec (.mtfe b c) s = .next t ∨ exec (.mtfd b c) s = .next t →
    KeepsInputs s t ∧ t.fidx = s.fidx ∧ (∀ i, bufRead t b i = bufRead s b i) ∧
    KeepsBufFrom s.len.toNat (dstOf b) s t ∧ (∀ i, ordRead t i = ordRead s i) ∧ KeepsBtScratch s t ∧
    KeepsSsScratch s t

/-- MTFE is move-to-front over one list: with MORDER as the list it emits the places and leaves the list the glossary's
definition leaves (00_scope.md, glossary: MTF; 42_mtf_recoder.md R187). The premise is the invariant of 10_state.md
R33. -/
def Obligations.MtfeMatchesListRecoder : Prop :=
  ∀ (b : Buf) (c : Bool) (s : State), s.len.toNat ≤ s.cap.toNat → s.tables.inverse →
    ∃ t, exec (.mtfe b c) s = .next t ∧ t.err = 0 ∧
      (t.block (dstOf b)).map BitVec.toNat = (listEncode (startTables c s).morder.toList (s.block b)).1 ∧
      t.tables.morder.toList = (listEncode (startTables c s).morder.toList (s.block b)).2

/-- MTFD is the decoding of move-to-front over one list (00_scope.md, glossary: MTF; 42_mtf_recoder.md R188). The premise
is the invariant of 10_state.md R33. -/
def Obligations.MtfdMatchesListRecoder : Prop :=
  ∀ (b : Buf) (c : Bool) (s : State), s.len.toNat ≤ s.cap.toNat → s.tables.inverse →
    ∃ t, exec (.mtfd b c) s = .next t ∧ t.err = 0 ∧
      t.block (dstOf b) = (listDecode (startTables c s).morder.toList (s.block b)).1 ∧
      t.tables.morder.toList = (listDecode (startTables c s).morder.toList (s.block b)).2

/-- 42_mtf_recoder.md R191: MTFE s and then MTFD (1-s) gives back the bytes; and a decoder on any instance that starts
from the encoder's tables and is fed the encoder's output emits the encoder's input and ends with the encoder's tables,
for every length and so after every step. -/
def Obligations.RoundTripMtf : Prop :=
  (∀ (b : Buf) (s : State), s.len.toNat ≤ s.cap.toNat → ∃ t u, exec (.mtfe b false) s = .next t ∧ t.err = 0 ∧
    exec (.mtfd (dstOf b) false) t = .next u ∧ u.err = 0 ∧ u.block b = s.block b) ∧
    ∀ (b b' : Buf) (c c' : Bool) (s d : State), s.len.toNat ≤ s.cap.toNat → s.tables.inverse →
      d.len.toNat ≤ d.cap.toNat → startTables c' d = startTables c s →
      ∃ t, exec (.mtfe b c) s = .next t ∧ t.err = 0 ∧
        (d.block b' = t.block (dstOf b) → ∃ u, exec (.mtfd b' c') d = .next u ∧ u.err = 0 ∧
          u.block (dstOf b') = s.block b ∧ u.tables = t.tables)

/-- 42_mtf_recoder.md R192: neither recoding is its own inverse. The example is the rule's. -/
def Obligations.MtfIsNoInvolution : Prop :=
  (∃ (b : Buf) (s t u : State), exec (.mtfe b false) s = .next t ∧ exec (.mtfe (dstOf b) false) t = .next u ∧
    s.block b = [65, 65] ∧ t.block (dstOf b) = [65, 0] ∧ u.block b = [65, 1]) ∧
    ∃ (b : Buf) (s t u : State), exec (.mtfd b false) s = .next t ∧ exec (.mtfd (dstOf b) false) t = .next u ∧
      u.err = 0 ∧ u.block b ≠ s.block b

/-- Chaining: a run over X with CONT = 0 and one over Y with CONT = 1 that starts from its tables emit together what one
run over XY emits, and end with the same tables, for MTFE and for MTFD, on any buffers (42_mtf_recoder.md R193). -/
def Obligations.MtfChaining : Prop :=
  ∀ (b b' b'' : Buf) (x y xy x' y' xy' : State), x.len.toNat ≤ x.cap.toNat → y.len.toNat ≤ y.cap.toNat →
    xy.len.toNat ≤ xy.cap.toNat → xy.block b'' = x.block b ++ y.block b' → y.tables = x'.tables →
    (exec (.mtfe b false) x = .next x' ∧ exec (.mtfe b' true) y = .next y' ∧ exec (.mtfe b'' false) xy = .next xy') ∨
      (exec (.mtfd b false) x = .next x' ∧ exec (.mtfd b' true) y = .next y' ∧ exec (.mtfd b'' false) xy = .next xy') →
    xy'.block (dstOf b'') = x'.block (dstOf b) ++ y'.block (dstOf b') ∧ xy'.tables = y'.tables

/-! ### The host's duties -/

/-- 20_memory.md R64: the byte order of the wire header, big-endian unless given otherwise. -/
def Obligations.WireHeaderByteOrder : Prop :=
  Config.wireOrder = .bigEndian ∧ ∀ f : Word,
    wireHeader .bigEndian f =
      [f.extractLsb' 24 8, f.extractLsb' 16 8, f.extractLsb' 8 8, f.extractLsb' 0 8] ∧
    wireHeader .littleEndian f =
      [f.extractLsb' 0 8, f.extractLsb' 8 8, f.extractLsb' 16 8, f.extractLsb' 24 8]

/-- A record reads back as its first index and payload, in either byte order, and a stream of fewer than four bytes is
the host's FormatError (43_host_and_nop.md R210, R211). -/
def Obligations.WireRecordReadsBack : Prop :=
  ∀ order : Config.WireOrder,
    (∀ (f : Word) (payload : List Byte), parseRecord order (wireRecord order f payload) = .ok (f, payload)) ∧
    ∀ stream : List Byte, stream.length < 4 → parseRecord order stream = .error .headerIncomplete

/-- The wire formats of 43_host_and_nop.md R210. After a BWTF the stream is the four header bytes and then the n bytes of
DSTBUF in index order; after an MTFE or an MTFD it is the n bytes alone, in either byte order. -/
def Obligations.WireStreamOfEachResult : Prop :=
  ∀ (order : Config.WireOrder) (i : Instr) (b : Buf) (c : Bool) (s : State), s.len.toNat ≤ s.cap.toNat →
    i = .mtfe b c ∨ i = .mtfd b c ∨ (i = .bwtf b ∧ 1 ≤ s.len.toNat) →
    ∃ t header body, exec i s = .next t ∧ t.err = 0 ∧
      wireStream order i s.len.toNat t = some (header ++ body) ∧
      (i = .bwtf b → header = wireHeader order t.fidx ∧ header.length = 4) ∧ (i ≠ .bwtf b → header = []) ∧
      body.length = s.len.toNat ∧ ∀ k, k < s.len.toNat → body.getD k 0 = bufRead t (dstOf b) k

/-- The stream of an MTFE, sent to any instance whose capacity holds it and decoded there by a host that writes LEN and
the bytes and issues MTFD, has the encoder's input as its own stream (43_host_and_nop.md R210, 42_mtf_recoder.md R191):
the stream needs no header. -/
def Obligations.RecodedStreamDecodesElsewhere : Prop :=
  ∀ (order : Config.WireOrder) (b b' : Buf) (s d : State), s.len.toNat ≤ s.cap.toNat → s.len.toNat ≤ d.cap.toNat →
    d.inputs = [] →
    ∃ t stream u, exec (.mtfe b false) s = .next t ∧ wireStream order (.mtfe b false) s.len.toNat t = some stream ∧
      Host.Core.run core (stream.length + 2)
        (loadScript [.WR .LEN (BitVec.ofNat 32 stream.length), .WB b' 0 stream, .command (.mtfd b' false)] d) =
        .next u ∧
      u.err = 0 ∧ u.inputs = [] ∧ wireStream order (.mtfd b' false) stream.length u = some (s.block b)

/-- The host's two duties joined: the record written after a BWTF, read on any instance whose capacity holds it and
inverted there by the operations of 43_host_and_nop.md R211, step by step, gives back the block (R210, R211). -/
def Obligations.HostInverseProgramRestores : Prop :=
  ∀ (order : Config.WireOrder) (b b' : Buf) (s d : State), 1 ≤ s.len.toNat → s.len.toNat ≤ s.cap.toNat →
    s.len.toNat ≤ d.cap.toNat →
    ∃ t ops u, exec (.bwtf b) s = .next t ∧
      inverseOps order d.cap.toNat b' (forwardRecord order b s.len.toNat t) = .ok ops ∧
      Host.Core.run core ops.length { d with inputs := ops.map HostEvent.op } = .next u ∧ u.err = 0 ∧
      u.inputs = [] ∧ readBlock u (dstOf b') s.len.toNat = s.block b

/-- Each of the fifteen lines of 30_encoding.md R102 assembles to the word R96 lists for it, and the two pseudo lines of
R103 to their commands. How blanks and commas separate words is the model's (log entry 10). -/
def Obligations.AssemblerAssemblesTheLegalLines : Prop :=
  ((["NOP", "SORT A", "SORT B", "BWTF A", "BWTF B", "BWTI A", "BWTI B", "MTFE A", "MTFE B", "MTFE A, C", "MTFE B, C",
      "MTFD A", "MTFD B", "MTFD A, C", "MTFD B, C"].map fun line =>
        (assembleLine line.toList).map fun items => (items.flatMap expansion).map encode) =
    legalWords.map fun w => some [w]) ∧
    (assembleLine "COMPRESS A".toList).map (fun items => (items.flatMap expansion).map encode) =
      some [0x00000002, 0x00000014] ∧
    (assembleLine "EXPAND A ; inverse".toList).map (fun items => (items.flatMap expansion).map encode) =
      some [0x00000005, 0x00000013]

/-- A pseudo-instruction stops at its first command that ends with an error; with that command successful it goes on to
the second (30_encoding.md R103). -/
def Obligations.PseudoInstructionStopsAtFirstError : Prop :=
  ∀ (b : Buf) (s t : State),
    (exec (.bwtf b) s = .next t →
      (t.err ≠ 0 → issueItem (.compress b) s = .next t) ∧
      (t.err = 0 → issueItem (.compress b) s = exec (.mtfe (dstOf b) false) t)) ∧
    (exec (.mtfd b false) s = .next t →
      (t.err ≠ 0 → issueItem (.expand b) s = .next t) ∧
      (t.err = 0 → issueItem (.expand b) s = exec (.bwti (dstOf b)) t))

/-- COMPRESS and then EXPAND gives back the block (43_host_and_nop.md R213, 30_encoding.md R103). `t'` is any state, on
this instance or another, in which the ranks, LEN and FIDX are as COMPRESS left them. -/
def Obligations.CompressThenExpandRestores : Prop :=
  ∀ (b : Buf) (s : State), 1 ≤ s.len.toNat → s.len.toNat ≤ s.cap.toNat →
    ∃ t, issueItem (.compress b) s = .next t ∧ t.err = 0 ∧
      ∀ t' : State, t'.len = t.len → t'.fidx = t.fidx → t'.len.toNat ≤ t'.cap.toNat → t'.block b = t.block b →
        ∃ u, issueItem (.expand b) t' = .next u ∧ u.err = 0 ∧ u.block b = s.block b

/-! ### Reset -/

/-- The reset event gives every piece of state its reset value and preserves nothing (70_reset_and_hazards.md R251,
10_state.md R38); what the host has read and will do is not the block's (log entries 2, 3), and an element that nothing
has written since is a free value of this reset (log entry 4). -/
def Obligations.ResetGivesResetState : Prop :=
  ∀ s : State, ∃ t, event .reset s = .next t ∧ t.err = 0 ∧ t.len = 0 ∧ t.fidx = 0 ∧ t.cap = s.cap ∧ t.sp = 0 ∧
    (∀ r, (h : r < 256) → t.tables.morder[r] = BitVec.ofNat 8 r ∧ t.tables.mrank[r] = BitVec.ofNat 8 r) ∧
    (∀ (b : Buf) (i : Nat), bufRead t b i = Config.unwrittenByte (s.resets + 1) (bufSpace b) i) ∧
    (∀ i, ordRead t i = Config.unwrittenWord (s.resets + 1) .ord i) ∧ t.fcol = [] ∧ t.nxt = [] ∧ t.cnt = [] ∧
    t.head = [] ∧ t.stack = [] ∧ t.inputs = s.inputs ∧ t.replies = s.replies

/-- What a host sees right after reset (70_reset_and_hazards.md R252), on an instance of any capacity. -/
def Obligations.FirstCommandsAfterReset : Prop :=
  (∀ (nmax : Word) (gen : Nat) (b : Buf) (c : Bool),
    regRead (State.resetOf nmax gen) 1 = 0 ∧ regRead (State.resetOf nmax gen) 2 = 0 ∧
    regRead (State.resetOf nmax gen) 3 = 0 ∧ regRead (State.resetOf nmax gen) 4 = nmax ∧
    exec (.sort b) (State.resetOf nmax gen) = .next (State.resetOf nmax gen) ∧
    exec (.mtfe b c) (State.resetOf nmax gen) = .next (State.resetOf nmax gen) ∧
    exec (.mtfd b c) (State.resetOf nmax gen) = .next (State.resetOf nmax gen) ∧
    exec (.bwtf b) (State.resetOf nmax gen) = .next { State.resetOf nmax gen with err := 1 } ∧
    exec (.bwti b) (State.resetOf nmax gen) = .next { State.resetOf nmax gen with err := 2 }) ∧
    ∀ (b : Buf) (s : State), s.tables = MtfTables.identity → exec (.mtfe b true) s = exec (.mtfe b false) s

/-! ### The whole machine -/

/-- Which commands write what: LEN and CAP none, FIDX only a successful BWTF, ORD[0..n) only SORT and BWTF, the MTF tables
only MTFE and MTFD, a buffer's elements [0, n) only the four commands that have it as destination (10_state.md R24, R25,
R30, R31, R32). -/
def Obligations.OnlyNamedCommandsWriteEachSpace : Prop :=
  ∀ (i : Instr) (s t : State), exec i s = .next t → KeepsInputs s t ∧
    (t.fidx ≠ s.fidx → (∃ b, i = .bwtf b) ∧ t.err = 0) ∧
    (∀ k, ordRead t k ≠ ordRead s k → (∃ b, i = .sort b ∨ i = .bwtf b) ∧ t.err = 0 ∧ k < s.len.toNat) ∧
    (t.tables ≠ s.tables → (∃ b c, i = .mtfe b c ∨ i = .mtfd b c) ∧ t.err = 0) ∧
    ∀ (c : Buf) (k : Nat), bufRead t c k ≠ bufRead s c k →
      (∃ b, readsBuf i b ∧ c = dstOf b ∧ i ≠ .sort b) ∧ t.err = 0 ∧ k < s.len.toNat

/-- 10_state.md R33: the MTF tables are mutually inverse at reset, and every host operation and every reset keeps them
so. -/
def Obligations.TablesStayInverse : Prop :=
  (∀ (nmax : Word) (gen : Nat), (State.resetOf nmax gen).tables.inverse) ∧
    ∀ (e : HostEvent) (s t : State), s.tables.inverse → event e s = .next t → t.tables.inverse

/-- The reset state of an instance of every admissible capacity meets the invariant, so `State.reset` does. -/
def Obligations.ResetMeetsInvariant : Prop :=
  (∀ (nmax : Word) (gen : Nat), 1 ≤ nmax.toNat → nmax.toNat ≤ Config.nmaxBound → (State.resetOf nmax gen).Inv) ∧
    State.reset.Inv

/-- From every state that meets the invariant a step gives a state that meets it: the capacity stays admissible, STATUS
holds a code of 60_exceptions.md R220, every memory stays in its canonical form and within its size (20_memory.md R60,
R66), STACK within STKCAP (40_suffix_sorter.md R134) with SP = 0 between commands, and the MTF tables mutually inverse
(10_state.md R33). -/
def Obligations.StepKeepsInvariant : Prop :=
  ∀ s t : State, s.Inv → step s = .next t → t.Inv

/-- Hidden state that is not observable (10_state.md R36): two states that differ in their scratch alone are led by every
command to states that differ in their scratch alone. -/
def Obligations.ScratchDoesNotMatter : Prop :=
  ∀ (i : Instr) (s s' : State), s.noScratch = s'.noScratch →
    ∃ t t', exec i s = .next t ∧ exec i s' = .next t' ∧ t.noScratch = t'.noScratch

/-- A command's outputs depend on its implicit inputs alone (30_encoding.md R99, 60_exceptions.md R240): on LEN and the
capacity, on SRCBUF[0..n), on FIDX for BWTI only, on the MTF tables for CONT = 1 only. -/
def Obligations.ResultsDependOnNamedInputs : Prop :=
  ∀ (i : Instr) (s s' t t' : State), (i ≠ .nop → s.len = s'.len ∧ s.cap = s'.cap) →
    (∀ b, readsBuf i b → s.block b = s'.block b) → (∀ b, i = .bwti b → s.fidx = s'.fidx) →
    (∀ b, i = .mtfe b true ∨ i = .mtfd b true → s.tables = s'.tables) → exec i s = .next t → exec i s' = .next t' →
    t.err = t'.err ∧ (t.err = 0 →
      (∀ b, i = .sort b ∨ i = .bwtf b → t.order s.len.toNat = t'.order s.len.toNat) ∧
      (∀ b, i = .bwtf b → t.fidx = t'.fidx) ∧
      (∀ b, readsBuf i b → i ≠ .sort b → t.block (dstOf b) = t'.block (dstOf b)) ∧
      ∀ b c, i = .mtfe b c ∨ i = .mtfd b c → t.tables = t'.tables)
end

