-- ==== Sys2Proof/Laws/State.lean ====
section
/-! SUPPORT. One lemma for each field and each update of State, true by rfl, so that no proof unfolds a record
update. -/

namespace Sys2Proof.Machine

/-! ### withBuf -/

@[simp] theorem State.withBuf_err (s : State) (b : Buf) (m : Memory Byte) : (s.withBuf b m).err = s.err := by
  cases b <;> rfl

@[simp] theorem State.withBuf_len (s : State) (b : Buf) (m : Memory Byte) : (s.withBuf b m).len = s.len := by
  cases b <;> rfl

@[simp] theorem State.withBuf_fidx (s : State) (b : Buf) (m : Memory Byte) : (s.withBuf b m).fidx = s.fidx := by
  cases b <;> rfl

@[simp] theorem State.withBuf_cap (s : State) (b : Buf) (m : Memory Byte) : (s.withBuf b m).cap = s.cap := by
  cases b <;> rfl

@[simp] theorem State.withBuf_ord (s : State) (b : Buf) (m : Memory Byte) : (s.withBuf b m).ord = s.ord := by
  cases b <;> rfl

@[simp] theorem State.withBuf_tables (s : State) (b : Buf) (m : Memory Byte) : (s.withBuf b m).tables = s.tables := by
  cases b <;> rfl

@[simp] theorem State.withBuf_fcol (s : State) (b : Buf) (m : Memory Byte) : (s.withBuf b m).fcol = s.fcol := by
  cases b <;> rfl

@[simp] theorem State.withBuf_nxt (s : State) (b : Buf) (m : Memory Byte) : (s.withBuf b m).nxt = s.nxt := by
  cases b <;> rfl

@[simp] theorem State.withBuf_cnt (s : State) (b : Buf) (m : Memory Byte) : (s.withBuf b m).cnt = s.cnt := by
  cases b <;> rfl

@[simp] theorem State.withBuf_head (s : State) (b : Buf) (m : Memory Byte) : (s.withBuf b m).head = s.head := by
  cases b <;> rfl

@[simp] theorem State.withBuf_stack (s : State) (b : Buf) (m : Memory Byte) : (s.withBuf b m).stack = s.stack := by
  cases b <;> rfl

@[simp] theorem State.withBuf_sp (s : State) (b : Buf) (m : Memory Byte) : (s.withBuf b m).sp = s.sp := by
  cases b <;> rfl

@[simp] theorem State.withBuf_resets (s : State) (b : Buf) (m : Memory Byte) : (s.withBuf b m).resets = s.resets := by
  cases b <;> rfl

@[simp] theorem State.withBuf_inputs (s : State) (b : Buf) (m : Memory Byte) : (s.withBuf b m).inputs = s.inputs := by
  cases b <;> rfl

@[simp] theorem State.withBuf_replies (s : State) (b : Buf) (m : Memory Byte) : (s.withBuf b m).replies = s.replies := by
  cases b <;> rfl

@[simp] theorem State.withBuf_buf_same (s : State) (b : Buf) (m : Memory Byte) : (s.withBuf b m).buf b = m := by
  cases b <;> rfl

theorem State.withBuf_buf_of_ne (s : State) {b c : Buf} (m : Memory Byte) (h : c ≠ b) :
    (s.withBuf b m).buf c = s.buf c := by
  cases b <;> cases c <;> first | rfl | exact absurd rfl h

@[simp] theorem State.withBuf_bufA_bufB (s : State) (m : Memory Byte) : (s.withBuf .bufA m).bufB = s.bufB := rfl

@[simp] theorem State.withBuf_bufB_bufA (s : State) (m : Memory Byte) : (s.withBuf .bufB m).bufA = s.bufA := rfl

@[simp] theorem State.withBuf_bufA_bufA (s : State) (m : Memory Byte) : (s.withBuf .bufA m).bufA = m := rfl

@[simp] theorem State.withBuf_bufB_bufB (s : State) (m : Memory Byte) : (s.withBuf .bufB m).bufB = m := rfl

/-! ### writeBlock -/

@[simp] theorem writeBlock_err (s : State) (b : Buf) (bytes : List Byte) : (writeBlock s b bytes).err = s.err := by
  simp [writeBlock]

@[simp] theorem writeBlock_len (s : State) (b : Buf) (bytes : List Byte) : (writeBlock s b bytes).len = s.len := by
  simp [writeBlock]

@[simp] theorem writeBlock_fidx (s : State) (b : Buf) (bytes : List Byte) : (writeBlock s b bytes).fidx = s.fidx := by
  simp [writeBlock]

@[simp] theorem writeBlock_cap (s : State) (b : Buf) (bytes : List Byte) : (writeBlock s b bytes).cap = s.cap := by
  simp [writeBlock]

@[simp] theorem writeBlock_ord (s : State) (b : Buf) (bytes : List Byte) : (writeBlock s b bytes).ord = s.ord := by
  simp [writeBlock]

@[simp] theorem writeBlock_tables (s : State) (b : Buf) (bytes : List Byte) : (writeBlock s b bytes).tables = s.tables := by
  simp [writeBlock]

@[simp] theorem writeBlock_fcol (s : State) (b : Buf) (bytes : List Byte) : (writeBlock s b bytes).fcol = s.fcol := by
  simp [writeBlock]

@[simp] theorem writeBlock_nxt (s : State) (b : Buf) (bytes : List Byte) : (writeBlock s b bytes).nxt = s.nxt := by
  simp [writeBlock]

@[simp] theorem writeBlock_cnt (s : State) (b : Buf) (bytes : List Byte) : (writeBlock s b bytes).cnt = s.cnt := by
  simp [writeBlock]

@[simp] theorem writeBlock_head (s : State) (b : Buf) (bytes : List Byte) : (writeBlock s b bytes).head = s.head := by
  simp [writeBlock]

@[simp] theorem writeBlock_stack (s : State) (b : Buf) (bytes : List Byte) : (writeBlock s b bytes).stack = s.stack := by
  simp [writeBlock]

@[simp] theorem writeBlock_sp (s : State) (b : Buf) (bytes : List Byte) : (writeBlock s b bytes).sp = s.sp := by
  simp [writeBlock]

@[simp] theorem writeBlock_resets (s : State) (b : Buf) (bytes : List Byte) : (writeBlock s b bytes).resets = s.resets := by
  simp [writeBlock]

@[simp] theorem writeBlock_inputs (s : State) (b : Buf) (bytes : List Byte) : (writeBlock s b bytes).inputs = s.inputs := by
  simp [writeBlock]

@[simp] theorem writeBlock_replies (s : State) (b : Buf) (bytes : List Byte) : (writeBlock s b bytes).replies = s.replies := by
  simp [writeBlock]

@[simp] theorem writeBlock_buf_same (s : State) (b : Buf) (bytes : List Byte) :
    (writeBlock s b bytes).buf b = (s.buf b).setFrom 0 bytes := by
  simp [writeBlock]

theorem writeBlock_buf_of_ne (s : State) {b c : Buf} (bytes : List Byte) (h : c ≠ b) :
    (writeBlock s b bytes).buf c = s.buf c :=
  State.withBuf_buf_of_ne s _ h

/-! ### dstOf -/

@[simp] theorem dstOf_dstOf (b : Buf) : dstOf (dstOf b) = b := by cases b <;> rfl

theorem dstOf_ne (b : Buf) : dstOf b ≠ b := by cases b <;> decide

theorem ne_dstOf (b : Buf) : b ≠ dstOf b := (dstOf_ne b).symm

theorem eq_or_eq_dstOf (b c : Buf) : c = b ∨ c = dstOf b := by
  cases b <;> cases c <;> simp [dstOf]

/-! ### The buffers of a record update -/

theorem State.buf_congr {s t : State} (ha : t.bufA = s.bufA) (hb : t.bufB = s.bufB) (b : Buf) : t.buf b = s.buf b := by
  cases b
  · exact ha
  · exact hb

/-! ### Outcomes -/

@[simp] theorem complete_eq (s : State) : complete s = .next { s with err := 0 } := rfl

@[simp] theorem raise_eq (e : CoreError) (s : State) : raise e s = .next { s with err := errorCode e } := rfl

theorem Outcome_next_inj {s t : State} (h : (Host.Outcome.next s : Host.Outcome State Fault Refusal) = .next t) :
    s = t := by
  injection h

/-! ### The block length check -/

theorem withBlockLength_fits {s : State} (run : Nat → Host.Outcome State Fault Refusal)
    (h : s.len.toNat ≤ s.cap.toNat) : withBlockLength s run = run s.len.toNat :=
  if_neg (Nat.not_lt.mpr h)

theorem withBlockLength_tooLong {s : State} (run : Nat → Host.Outcome State Fault Refusal)
    (h : s.cap.toNat < s.len.toNat) : withBlockLength s run = .next { s with err := 1 } :=
  if_pos h

/-- All that `withBlockLength` can do. -/
theorem withBlockLength_cases (s : State) (run : Nat → Host.Outcome State Fault Refusal) :
    (s.cap.toNat < s.len.toNat ∧ withBlockLength s run = .next { s with err := 1 }) ∨
      (s.len.toNat ≤ s.cap.toNat ∧ withBlockLength s run = run s.len.toNat) := by
  rcases Nat.lt_or_ge s.cap.toNat s.len.toNat with h | h
  · exact .inl ⟨h, withBlockLength_tooLong run h⟩
  · exact .inr ⟨h, withBlockLength_fits run h⟩

end Sys2Proof.Machine
end

