-- ==== Sys2Proof/Laws/Memory.lean ====
section
/-! SUPPORT. What reading and writing a memory does: read after write, every other element unchanged, and the canonical
form is kept. -/

namespace Sys2Proof.Machine

variable {α : Type}

/-! ### One element -/

theorem Memory.get?_set (m : Memory α) (i j : Nat) (v : α) :
    Memory.get? (Memory.set m i v) j = if i = j then some v else Memory.get? m j := by
  induction m with
  | nil => simp [Memory.set, Memory.get?]
  | cons e m ih =>
    obtain ⟨k, x⟩ := e
    simp only [Memory.set]
    split
    · simp [Memory.get?]
    · split
      · subst_vars
        simp only [Memory.get?]
        split <;> rfl
      · simp only [Memory.get?, ih]
        split
        · subst_vars
          rw [if_neg (by assumption)]
        · rfl

@[simp] theorem Memory.get?_set_same (m : Memory α) (i : Nat) (v : α) :
    Memory.get? (Memory.set m i v) i = some v := by
  simp [Memory.get?_set]

theorem Memory.get?_set_of_ne (m : Memory α) {i j : Nat} (v : α) (h : i ≠ j) :
    Memory.get? (Memory.set m i v) j = Memory.get? m j := by
  simp [Memory.get?_set, h]

/-! ### A block -/

/-- Reading after a block write: inside the block the element written, outside it the element from before. -/
theorem Memory.get?_setFrom (m : Memory α) (i j : Nat) (vs : List α) :
    Memory.get? (Memory.setFrom m i vs) j =
      if h : i ≤ j ∧ j < i + vs.length then some (vs[j - i]'(by omega)) else Memory.get? m j := by
  induction vs generalizing m i with
  | nil =>
    simp only [Memory.setFrom, List.length_nil, Nat.add_zero]
    rw [dif_neg (by omega)]
  | cons v vs ih =>
    simp only [Memory.setFrom, ih]
    by_cases h1 : i + 1 ≤ j ∧ j < i + 1 + vs.length
    · rw [dif_pos h1, dif_pos (by simp only [List.length_cons]; omega)]
      have : j - i = (j - (i + 1)) + 1 := by omega
      simp [this]
    · rw [dif_neg h1, Memory.get?_set]
      by_cases h2 : i = j
      · subst h2
        simp
      · rw [if_neg h2, dif_neg (by simp only [List.length_cons]; omega)]

theorem Memory.get?_setFrom_zero_lt (m : Memory α) (vs : List α) {j : Nat} (h : j < vs.length) :
    Memory.get? (Memory.setFrom m 0 vs) j = some vs[j] := by
  rw [Memory.get?_setFrom, dif_pos (by omega)]
  simp

theorem Memory.get?_setFrom_zero_ge (m : Memory α) (vs : List α) {j : Nat} (h : vs.length ≤ j) :
    Memory.get? (Memory.setFrom m 0 vs) j = Memory.get? m j := by
  rw [Memory.get?_setFrom, dif_neg (by omega)]

/-! ### The canonical form is kept -/

theorem Memory.wfFrom_mono {size a b : Nat} {m : Memory α} (hab : a ≤ b) (h : Memory.wfFrom size b m = true) :
    Memory.wfFrom size a m = true := by
  cases m with
  | nil => rfl
  | cons e m =>
    obtain ⟨k, x⟩ := e
    simp only [Memory.wfFrom, Bool.and_eq_true, decide_eq_true_eq] at h ⊢
    exact ⟨⟨by omega, h.1.2⟩, h.2⟩

theorem Memory.wfFrom_set {size a i : Nat} {m : Memory α} (v : α) (ha : a ≤ i) (hi : i < size)
    (h : Memory.wfFrom size a m = true) : Memory.wfFrom size a (Memory.set m i v) = true := by
  induction m generalizing a with
  | nil => simp [Memory.set, Memory.wfFrom, ha, hi]
  | cons e m ih =>
    obtain ⟨k, x⟩ := e
    simp only [Memory.wfFrom, Bool.and_eq_true, decide_eq_true_eq] at h
    simp only [Memory.set]
    split
    · simp only [Memory.wfFrom, Bool.and_eq_true, decide_eq_true_eq]
      exact ⟨⟨ha, hi⟩, ⟨by omega, h.1.2⟩, h.2⟩
    · split
      · subst_vars
        simp only [Memory.wfFrom, Bool.and_eq_true, decide_eq_true_eq]
        exact h
      · simp only [Memory.wfFrom, Bool.and_eq_true, decide_eq_true_eq]
        exact ⟨h.1, ih (by omega) h.2⟩

theorem Memory.wf_set {size i : Nat} {m : Memory α} (v : α) (hi : i < size) (h : Memory.wf size m = true) :
    Memory.wf size (Memory.set m i v) = true :=
  Memory.wfFrom_set v (Nat.zero_le i) hi h

theorem Memory.wf_setFrom {size i : Nat} {m : Memory α} (vs : List α) (hi : i + vs.length ≤ size)
    (h : Memory.wf size m = true) : Memory.wf size (Memory.setFrom m i vs) = true := by
  induction vs generalizing m i with
  | nil => exact h
  | cons v vs ih =>
    simp only [List.length_cons] at hi
    exact ih (by omega) (Memory.wf_set v (by omega) h)

@[simp] theorem Memory.wf_nil (size : Nat) : Memory.wf size ([] : Memory α) = true := rfl

/-! ### Reads of the state -/

@[simp] theorem readBlock_length (s : State) (b : Buf) (n : Nat) : (readBlock s b n).length = n := by
  simp [readBlock]

theorem readBlock_getD (s : State) (b : Buf) {n i : Nat} (h : i < n) : (readBlock s b n).getD i 0 = bufRead s b i := by
  simp [readBlock, h]

@[simp] theorem readOrd_length (s : State) (n : Nat) : (readOrd s n).length = n := by
  simp [readOrd]

theorem readBlock_congr {s t : State} {b c : Buf} {n : Nat} (h : ∀ i, i < n → bufRead s b i = bufRead t c i) :
    readBlock s b n = readBlock t c n := by
  simp only [readBlock]
  exact List.map_congr_left fun i hi => h i (List.mem_range.mp hi)

theorem bufRead_eq_of_buf {s t : State} {b : Buf} (hb : t.buf b = s.buf b) (hr : t.resets = s.resets) (i : Nat) :
    bufRead t b i = bufRead s b i := by
  simp [bufRead, hb, hr]

theorem ordRead_eq_of_ord {s t : State} (ho : t.ord = s.ord) (hr : t.resets = s.resets) (i : Nat) :
    ordRead t i = ordRead s i := by
  simp [ordRead, ho, hr]

/-- Reading a buffer after a block was written to it from element 0 on. -/
theorem bufRead_of_setFrom {s t : State} {b : Buf} {vs : List Byte} (hb : t.buf b = (s.buf b).setFrom 0 vs)
    (hr : t.resets = s.resets) (i : Nat) : bufRead t b i = if h : i < vs.length then vs[i] else bufRead s b i := by
  simp only [bufRead, byteRead, hb, hr]
  split
  · rw [Memory.get?_setFrom_zero_lt _ _ (by assumption)]
    rfl
  · rw [Memory.get?_setFrom_zero_ge _ _ (by omega)]

/-- Reading ORD after a block was written to it from element 0 on. -/
theorem ordRead_of_setFrom {s t : State} {vs : List Word} (ho : t.ord = s.ord.setFrom 0 vs)
    (hr : t.resets = s.resets) (i : Nat) : ordRead t i = if h : i < vs.length then vs[i] else ordRead s i := by
  simp only [ordRead, wordRead, ho, hr]
  split
  · rw [Memory.get?_setFrom_zero_lt _ _ (by assumption)]
    rfl
  · rw [Memory.get?_setFrom_zero_ge _ _ (by omega)]

theorem readBlock_of_setFrom {s t : State} {b : Buf} {vs : List Byte} (hb : t.buf b = (s.buf b).setFrom 0 vs)
    (hr : t.resets = s.resets) : readBlock t b vs.length = vs := by
  apply List.ext_getElem
  · simp
  · intro i h1 h2
    simp only [readBlock, List.getElem_map, List.getElem_range]
    rw [bufRead_of_setFrom hb hr, dif_pos h2]

theorem readOrd_of_setFrom {s t : State} {vs : List Word} (ho : t.ord = s.ord.setFrom 0 vs)
    (hr : t.resets = s.resets) : readOrd t vs.length = vs := by
  apply List.ext_getElem
  · simp
  · intro i h1 h2
    simp only [readOrd, List.getElem_map, List.getElem_range]
    rw [ordRead_of_setFrom ho hr, dif_pos h2]

@[simp] theorem toWords_length (is : List Nat) : (toWords is).length = is.length := by simp [toWords]

/-- Indices below 2^32 survive being stored as 32-bit elements. -/
theorem toWords_toNat {is : List Nat} (h : ∀ i ∈ is, i < 2 ^ 32) : (toWords is).map BitVec.toNat = is := by
  simp only [toWords, List.map_map]
  conv_rhs => rw [← List.map_id is]
  exact List.map_congr_left fun i hi => by simpa using h i hi

end Sys2Proof.Machine
end

