-- ==== Sys2Proof/Laws/Recoder.lean ====
section
/-! SUPPORT. What FRONT does to the MTF tables, and why decoding undoes encoding (42_mtf_recoder.md R183 to R191,
R193). -/

namespace Sys2Proof.Machine

/-! ### The loop of FRONT -/

/-- MORDER after the loop: the values at ranks 0..r-1 have moved up by one (R183). -/
theorem frontLoop_morder (r : Nat) (h : r < 256) (t : MtfTables) (x : Nat) (hx : x < 256) :
    (frontLoop t r h).morder[x] = if 1 ≤ x ∧ x ≤ r then t.morder[x - 1] else t.morder[x] := by
  induction r generalizing t with
  | zero =>
    rw [if_neg (by omega)]
    rfl
  | succ r ih =>
    simp only [frontLoop, ih]
    by_cases h1 : 1 ≤ x ∧ x ≤ r
    · rw [if_pos h1, if_pos (by omega), Vector.getElem_set_ne _ _ (by omega)]
    · rw [if_neg h1, Vector.getElem_set]
      by_cases h2 : x = r + 1
      · subst h2
        simp
      · rw [if_neg (by omega), if_neg (by omega)]

/-- MRANK of a value that the loop did not move is as before. -/
theorem frontLoop_mrank_other (r : Nat) (h : r < 256) (t : MtfTables) (c : Byte)
    (hc : ∀ x, (hx : x < r) → t.morder[x] ≠ c) : (frontLoop t r h).mrank[c.toNat] = t.mrank[c.toNat] := by
  induction r generalizing t with
  | zero => rfl
  | succ r ih =>
    simp only [frontLoop]
    rw [ih]
    · rw [Vector.getElem_set_ne]
      intro he
      exact hc r (by omega) (BitVec.eq_of_toNat_eq he)
    · intro x hx
      rw [Vector.getElem_set_ne _ _ (by omega)]
      exact hc x (by omega)

/-- MRANK of a value that the loop moved is one more than its place (R183). -/
theorem frontLoop_mrank_moved (r : Nat) (h : r < 256) (t : MtfTables)
    (hinj : ∀ x y, (hx : x < r) → (hy : y < r) → t.morder[x] = t.morder[y] → x = y) (x : Nat) (hx : x < r) :
    (frontLoop t r h).mrank[(t.morder[x]).toNat] = BitVec.ofNat 8 (x + 1) := by
  induction r generalizing t with
  | zero => omega
  | succ r ih =>
    have hsame : ∀ y, (hy : y < r) → (t.morder.set (r + 1) t.morder[r])[y] = t.morder[y] := fun y hy =>
      Vector.getElem_set_ne _ _ (by omega)
    simp only [frontLoop]
    by_cases hxr : x = r
    · subst hxr
      rw [frontLoop_mrank_other]
      · rw [Vector.getElem_set_self]
      · intro y hy he
        rw [hsame y hy] at he
        have := hinj y x (by omega) (by omega) he
        omega
    · have key := ih (by omega)
        { morder := t.morder.set (r + 1) t.morder[r]
          mrank := t.mrank.set (t.morder[r]).toNat (BitVec.ofNat 8 (r + 1)) (t.morder[r]).isLt }
        (fun y z hy hz he => by
          simp only [hsame y hy, hsame z hz] at he
          exact hinj y z (by omega) (by omega) he)
        (by omega)
      simp only [hsame x (show x < r by omega)] at key
      exact key

/-! ### FRONT (R183, R184) -/

theorem MtfTables.inverse.injective {t : MtfTables} (h : t.inverse) {x y : Nat} (hx : x < 256) (hy : y < 256)
    (he : t.morder[x] = t.morder[y]) : x = y := by
  have h1 := h.1 (BitVec.ofNat 8 x)
  have h2 := h.1 (BitVec.ofNat 8 y)
  have hx' : (BitVec.ofNat 8 x).toNat = x := by simpa using hx
  have hy' : (BitVec.ofNat 8 y).toNat = y := by simpa using hy
  simp only [hx', hy', he] at h1 h2
  have := h1.symm.trans h2
  have := congrArg BitVec.toNat this
  rwa [hx', hy'] at this

/-- MORDER after FRONT(c), without a loop: `c`, then the old ranks 0..p-1, then the old ranks above p (R183). -/
theorem front_morder {t : MtfTables} (h : t.inverse) (c : Byte) (r : Nat) (hr : r < 256) :
    (front t c).morder[r] =
      if r = 0 then c
      else if r ≤ (t.mrank[c.toNat]).toNat then t.morder[r - 1] else t.morder[r] := by
  have hc := h.2 c
  simp only [front]
  by_cases h0 : r = 0
  · subst h0
    simp
  · rw [Vector.getElem_set_ne _ _ (by omega), frontLoop_morder, if_neg h0]
    by_cases hrp : r ≤ (t.mrank[c.toNat]).toNat
    · rw [if_pos ⟨by omega, hrp⟩, if_pos hrp]
    · rw [if_neg (fun hh => hrp hh.2), if_neg hrp]

/-- MRANK after FRONT(c) at the value that MORDER now holds at rank r. -/
theorem front_rank_of_morder {t : MtfTables} (h : t.inverse) (c : Byte) (r : Byte) :
    (front t c).mrank[((front t c).morder[r.toNat]).toNat] = r := by
  have hc := h.2 c
  have hp : (t.mrank[c.toNat]).toNat < 256 := (t.mrank[c.toNat]).isLt
  have hne : ∀ x, (hx : x < 256) → x ≠ (t.mrank[c.toNat]).toNat → t.morder[x] ≠ c := by
    intro x hx hxp he
    exact hxp (h.injective hx hp (by rw [he, hc]))
  have hr : r.toNat < 256 := r.isLt
  have hrank : ∀ v : Byte, v ≠ c → (front t c).mrank[v.toNat] =
      (frontLoop t (t.mrank[c.toNat]).toNat hp).mrank[v.toNat] := by
    intro v hv
    simp only [front]
    rw [Vector.getElem_set_ne]
    intro he
    exact hv (BitVec.eq_of_toNat_eq he).symm
  simp only [front_morder h c r.toNat hr]
  by_cases h0 : r.toNat = 0
  · simp only [h0, if_true, front, Vector.getElem_set_self]
    exact (BitVec.eq_of_toNat_eq (by simpa using h0)).symm
  · simp only [if_neg h0]
    by_cases hrp : r.toNat ≤ (t.mrank[c.toNat]).toNat
    · simp only [if_pos hrp]
      rw [hrank _ (hne _ (by omega) (by omega)), frontLoop_mrank_moved _ _ _
        (fun x y hx hy he => h.injective (by omega) (by omega) he) _ (by omega)]
      apply BitVec.eq_of_toNat_eq
      rw [BitVec.toNat_ofNat, Nat.mod_eq_of_lt (by omega)]
      omega
    · simp only [if_neg hrp]
      rw [hrank _ (hne _ (by omega) (by omega)), frontLoop_mrank_other]
      · exact h.1 r
      · intro x hx he
        have := h.injective (x := x) (y := r.toNat) (by omega) (by omega) he
        omega

/-- One half of being mutually inverse is enough. -/
theorem MtfTables.inverse_of_left {t : MtfTables} (h : ∀ r : Byte, t.mrank[(t.morder[r.toNat]).toNat] = r) :
    t.inverse := by
  refine ⟨h, fun c => ?_⟩
  have hinj : Function.Injective fun r : Byte => t.morder[r.toNat] := by
    intro x y he
    simp only at he
    rw [← h x, ← h y]
    simp only [he]
  have : Finite Byte := Finite.of_equiv (Fin (2 ^ 8)) ⟨BitVec.ofFin, BitVec.toFin, fun _ => rfl, fun _ => rfl⟩
  obtain ⟨r, hr⟩ := (Finite.injective_iff_surjective.mp hinj) c
  simp only at hr
  have := h r
  simp only [hr] at this
  simp only [this, hr]

/-- FRONT keeps the tables mutually inverse (R184). -/
theorem front_inverse {t : MtfTables} (h : t.inverse) (c : Byte) : (front t c).inverse :=
  MtfTables.inverse_of_left (front_rank_of_morder h c)

/-- FRONT(c) puts `c` at rank 0. -/
theorem front_morder_zero (t : MtfTables) (c : Byte) : (front t c).morder[0] = c := by
  simp [front]

theorem identity_morder (r : Nat) (hr : r < 256) : MtfTables.identity.morder[r] = BitVec.ofNat 8 r := by
  simp [MtfTables.identity]

theorem identity_mrank (r : Nat) (hr : r < 256) : MtfTables.identity.mrank[r] = BitVec.ofNat 8 r := by
  simp [MtfTables.identity]

/-- The identity tables are mutually inverse (R33). -/
theorem identity_inverse : MtfTables.identity.inverse := by
  apply MtfTables.inverse_of_left
  intro r
  simp [MtfTables.identity]

/-! ### Runs (R187, R188, R191, R193) -/

@[simp] theorem encodeRun_length (t : MtfTables) (B : List Byte) : (encodeRun t B).1.length = B.length := by
  induction B generalizing t with
  | nil => rfl
  | cons c cs ih => simp [encodeRun, ih]

@[simp] theorem decodeRun_length (t : MtfTables) (B : List Byte) : (decodeRun t B).1.length = B.length := by
  induction B generalizing t with
  | nil => rfl
  | cons c cs ih => simp [decodeRun, ih]

theorem encodeRun_inverse {t : MtfTables} (h : t.inverse) (B : List Byte) : (encodeRun t B).2.inverse := by
  induction B generalizing t with
  | nil => exact h
  | cons c cs ih => exact ih (front_inverse h c)

theorem decodeRun_inverse {t : MtfTables} (h : t.inverse) (B : List Byte) : (decodeRun t B).2.inverse := by
  induction B generalizing t with
  | nil => exact h
  | cons p ps ih => exact ih (front_inverse h _)

/-- The tables before symbol `i` of an encode run. -/
def encTablesAt (t : MtfTables) (B : List Byte) (i : Nat) : MtfTables := (encodeRun t (B.take i)).2

/-- The tables before symbol `i` of a decode run. -/
def decTablesAt (t : MtfTables) (B : List Byte) (i : Nat) : MtfTables := (decodeRun t (B.take i)).2

/-- A run over a concatenation is the run over the first part, then over the second (R193). -/
theorem encodeRun_append (t : MtfTables) (X Y : List Byte) :
    encodeRun t (X ++ Y) =
      ((encodeRun t X).1 ++ (encodeRun (encodeRun t X).2 Y).1, (encodeRun (encodeRun t X).2 Y).2) := by
  induction X generalizing t with
  | nil => rfl
  | cons c cs ih => simp only [List.cons_append, encodeRun, ih]

theorem decodeRun_append (t : MtfTables) (X Y : List Byte) :
    decodeRun t (X ++ Y) =
      ((decodeRun t X).1 ++ (decodeRun (decodeRun t X).2 Y).1, (decodeRun (decodeRun t X).2 Y).2) := by
  induction X generalizing t with
  | nil => rfl
  | cons c cs ih => simp only [List.cons_append, decodeRun, ih]

/-- The i-th emitted rank and the tables after it (R185, R187). -/
theorem encodeRun_step (t : MtfTables) (B : List Byte) {i : Nat} (hi : i < B.length) :
    (encodeRun t B).1.getD i 0 = encEmit (encTablesAt t B i) (B.getD i 0) ∧
      encTablesAt t B (i + 1) = front (encTablesAt t B i) (B.getD i 0) := by
  have hb : B.getD i 0 = B[i] := List.getD_eq_getElem _ _ hi
  refine ⟨?_, ?_⟩
  · conv_lhs => rw [← List.take_append_drop i B]
    rw [encodeRun_append, List.getD_append_right _ _ _ _ (by simp), encodeRun_length, List.length_take,
      Nat.min_eq_left hi.le, Nat.sub_self, List.drop_eq_getElem_cons hi, hb]
    rfl
  · rw [encTablesAt, List.take_succ_eq_append_getElem hi, encodeRun_append, hb]
    rfl

/-- The i-th emitted byte and the tables after it (R186, R188). -/
theorem decodeRun_step (t : MtfTables) (B : List Byte) {i : Nat} (hi : i < B.length) :
    (decodeRun t B).1.getD i 0 = decEmit (decTablesAt t B i) (B.getD i 0) ∧
      decTablesAt t B (i + 1) = front (decTablesAt t B i) (decEmit (decTablesAt t B i) (B.getD i 0)) := by
  have hb : B.getD i 0 = B[i] := List.getD_eq_getElem _ _ hi
  refine ⟨?_, ?_⟩
  · conv_lhs => rw [← List.take_append_drop i B]
    rw [decodeRun_append, List.getD_append_right _ _ _ _ (by simp), decodeRun_length, List.length_take,
      Nat.min_eq_left hi.le, Nat.sub_self, List.drop_eq_getElem_cons hi, hb]
    rfl
  · rw [decTablesAt, List.take_succ_eq_append_getElem hi, decodeRun_append, hb]
    rfl

/-- From equal tables a decoder undoes an encoder, and both end with equal tables (R191). -/
theorem decodeRun_encodeRun {t : MtfTables} (h : t.inverse) (B : List Byte) :
    decodeRun t (encodeRun t B).1 = (B, (encodeRun t B).2) := by
  induction B generalizing t with
  | nil => rfl
  | cons c cs ih =>
    have he : decEmit t (encEmit t c) = c := h.2 c
    simp only [encodeRun, decodeRun, he, ih (front_inverse h c)]

/-- From equal tables an encoder undoes a decoder. -/
theorem encodeRun_decodeRun {t : MtfTables} (h : t.inverse) (B : List Byte) :
    encodeRun t (decodeRun t B).1 = (B, (decodeRun t B).2) := by
  induction B generalizing t with
  | nil => rfl
  | cons p ps ih =>
    have he : encEmit t (decEmit t p) = p := h.1 p
    simp only [encodeRun, decodeRun, he, ih (front_inverse h _)]

end Sys2Proof.Machine
end

