-- ==== Sys2Proof/Laws/Inverse.lean ====
section
/-! SUPPORT. What the loops of BWTI_MICRO compute: the counts, the first column F and the LF mapping, and the walk
(41_bwt_transformer.md R161 to R165, R170). -/

namespace Sys2Proof.Machine

/-! ### Counting -/

theorem countBytes_aux (P : List Byte) (c : List Nat) (hc : c.length = 256) :
    (P.foldl (fun c b => c.modify b.toNat (· + 1)) c).length = 256 ∧
      ∀ v, v < 256 → (P.foldl (fun c b => c.modify b.toNat (· + 1)) c).getD v 0 = c.getD v 0 + cntOf P v := by
  induction P generalizing c with
  | nil => exact ⟨hc, fun v _ => by simp [cntOf]⟩
  | cons b P ih =>
    obtain ⟨h1, h2⟩ := ih (c.modify b.toNat (· + 1)) (by simpa using hc)
    refine ⟨h1, fun v hv => ?_⟩
    rw [List.foldl_cons, h2 v hv]
    have hb : b.toNat < 256 := b.isLt
    have hm : (c.modify b.toNat (· + 1)).getD v 0 = c.getD v 0 + if b.toNat = v then 1 else 0 := by
      have h3 : v < (c.modify b.toNat (· + 1)).length := by simp [hc, hv]
      rw [List.getD_eq_getElem _ _ h3, List.getElem_modify, List.getD_eq_getElem _ _ (by omega)]
      split <;> simp
    rw [hm]
    simp only [cntOf, List.map_cons, List.count_cons, beq_iff_eq]
    omega

theorem zeroCounts_length : (List.replicate Config.alpha 0 : List Nat).length = 256 := List.length_replicate

theorem zeroCounts_getD (v : Nat) : (List.replicate Config.alpha 0 : List Nat).getD v 0 = 0 := by
  rw [List.getD_eq_getElem?_getD, List.getElem?_replicate]
  split <;> rfl

@[simp] theorem countBytes_length (P : List Byte) : (countBytes P).length = 256 :=
  (countBytes_aux P _ zeroCounts_length).1

theorem countBytes_getD (P : List Byte) {v : Nat} (hv : v < 256) : (countBytes P).getD v 0 = cntOf P v := by
  have := (countBytes_aux P _ zeroCounts_length).2 v hv
  rw [zeroCounts_getD, Nat.zero_add] at this
  exact this

theorem countBytes_eq (P : List Byte) : countBytes P = (List.range 256).map (cntOf P) := by
  apply List.ext_getElem
  · simp
  · intro i h1 h2
    have hi : i < 256 := by simpa using h1
    have := countBytes_getD P hi
    rw [List.getD_eq_getElem _ _ h1] at this
    simpa using this

/-! ### Bases: the blocks [base[v], base[v] + cnt[v]) partition [0, n) (R170) -/

theorem baseOf_succ (P : List Byte) (v : Nat) : baseOf P (v + 1) = baseOf P v + cntOf P v := by
  simp [baseOf, List.range_succ]

theorem baseOf_mono (P : List Byte) {v w : Nat} (h : v ≤ w) : baseOf P v ≤ baseOf P w := by
  induction h with
  | refl => exact Nat.le_refl _
  | step _ ih => exact ih.trans (by rw [Nat.succ_eq_add_one, baseOf_succ]; omega)

/-- Blocks of different byte values do not meet. -/
theorem baseOf_block_lt (P : List Byte) {v w : Nat} (h : v < w) : baseOf P v + cntOf P v ≤ baseOf P w := by
  rw [← baseOf_succ]
  exact baseOf_mono P h

theorem cntOf_eq_zero (P : List Byte) {v : Nat} (h : 256 ≤ v) : cntOf P v = 0 := by
  rw [cntOf, List.count_eq_zero]
  intro hm
  obtain ⟨b, -, hb⟩ := List.mem_map.mp hm
  have := b.isLt
  omega

theorem baseOf_cons (b : Byte) (P : List Byte) (v : Nat) :
    baseOf (b :: P) v = baseOf P v + if b.toNat < v then 1 else 0 := by
  induction v with
  | zero => simp [baseOf]
  | succ v ih =>
    rw [baseOf_succ, baseOf_succ, ih]
    have : cntOf (b :: P) v = cntOf P v + if b.toNat = v then 1 else 0 := by
      simp [cntOf, List.count_cons]
    rw [this]
    split <;> split <;> split <;> omega

theorem baseOf_nil (v : Nat) : baseOf [] v = 0 := by
  induction v with
  | zero => rfl
  | succ v ih => rw [baseOf_succ, ih]; rfl

theorem baseOf_alpha (P : List Byte) : baseOf P 256 = P.length := by
  induction P with
  | nil => exact baseOf_nil 256
  | cons b P ih =>
    rw [baseOf_cons, ih, if_pos b.isLt, List.length_cons]

theorem block_le_length (P : List Byte) {v : Nat} (hv : v < 256) : baseOf P v + cntOf P v ≤ P.length := by
  rw [← baseOf_alpha P]
  exact baseOf_block_lt P hv

/-- Every row lies in one block. -/
theorem exists_block (P : List Byte) {i : Nat} (hi : i < P.length) :
    ∃ v t, v < 256 ∧ t < cntOf P v ∧ i = baseOf P v + t := by
  have : ∀ w, i < baseOf P w → ∃ v, v < w ∧ baseOf P v ≤ i ∧ i < baseOf P v + cntOf P v := by
    intro w
    induction w with
    | zero => intro h; simp [baseOf] at h
    | succ w ih =>
      intro h
      by_cases hw : i < baseOf P w
      · obtain ⟨v, h1, h2⟩ := ih hw
        exact ⟨v, by omega, h2⟩
      · rw [baseOf_succ] at h
        exact ⟨w, by omega, by omega, h⟩
  obtain ⟨v, h1, h2, h3⟩ := this 256 (by rw [baseOf_alpha]; exact hi)
  exact ⟨v, i - baseOf P v, h1, by omega, by omega⟩

/-! ### The first column (R162) -/

theorem firstColumn_heads (v sum : Nat) (cnt : List Nat) :
    (firstColumn v sum cnt).1.length = cnt.length ∧
      ∀ t, t < cnt.length → (firstColumn v sum cnt).1.getD t 0 = sum + (cnt.take t).sum := by
  induction cnt generalizing v sum with
  | nil => simp [firstColumn]
  | cons c cs ih =>
    obtain ⟨h1, h2⟩ := ih (v + 1) (sum + c)
    refine ⟨by simp [firstColumn, h1], fun t ht => ?_⟩
    cases t with
    | zero => simp [firstColumn]
    | succ t =>
      have := h2 t (by simpa using ht)
      simp only [firstColumn, List.getD_cons_succ, this, List.take_succ_cons, List.sum_cons]
      omega

theorem firstColumn_col (v sum : Nat) (cnt : List Nat) :
    (firstColumn v sum cnt).2.length = cnt.sum ∧
      ∀ t i, t < cnt.length → (cnt.take t).sum ≤ i → i < (cnt.take t).sum + cnt.getD t 0 →
        (firstColumn v sum cnt).2.getD i 0 = BitVec.ofNat 8 (v + t) := by
  induction cnt generalizing v sum with
  | nil => simp [firstColumn]
  | cons c cs ih =>
    obtain ⟨h1, h2⟩ := ih (v + 1) (sum + c)
    refine ⟨by simp [firstColumn, h1], fun t i ht hlo hhi => ?_⟩
    cases t with
    | zero =>
      have hi : i < c := by simpa using hhi
      simp only [firstColumn, Nat.add_zero]
      rw [List.getD_append _ _ _ _ (by simpa using hi)]
      simp [hi]
    | succ t =>
      simp only [List.take_succ_cons, List.sum_cons, List.getD_cons_succ] at hlo hhi
      have := h2 t (i - c) (by simpa using ht) (by omega) (by omega)
      simp only [firstColumn]
      rw [List.getD_append_right _ _ _ _ (by simp; omega), List.length_replicate, this]
      congr 1
      omega

theorem take_counts_sum (P : List Byte) {v : Nat} (hv : v ≤ 256) : ((countBytes P).take v).sum = baseOf P v := by
  rw [countBytes_eq, ← List.map_take, List.take_range, Nat.min_eq_left hv]
  rfl

theorem counts_sum (P : List Byte) : (countBytes P).sum = P.length := by
  have := take_counts_sum P (Nat.le_refl 256)
  rw [List.take_of_length_le (by simp), baseOf_alpha] at this
  exact this

/-- The third loop computes F (R162) ... -/
theorem firstColumn_isFirstColumn (P : List Byte) : IsFirstColumn P (firstColumn 0 0 (countBytes P)).2 := by
  obtain ⟨h1, h2⟩ := firstColumn_col 0 0 (countBytes P)
  refine ⟨by rw [h1, counts_sum], fun v i hv hlo hhi => ?_⟩
  rw [h2 v i (by simpa using hv) (by rw [take_counts_sum P hv.le]; exact hlo)
    (by rw [take_counts_sum P hv.le, countBytes_getD P hv]; exact hhi)]
  simpa using hv

/-- ... and HEAD[v] = base[v] (R164). -/
theorem firstColumn_base (P : List Byte) {v : Nat} (hv : v < 256) :
    (firstColumn 0 0 (countBytes P)).1.getD v 0 = baseOf P v := by
  rw [(firstColumn_heads 0 0 (countBytes P)).2 v (by simpa using hv), take_counts_sum P hv.le, Nat.zero_add]

@[simp] theorem firstColumn_heads_length (P : List Byte) : (firstColumn 0 0 (countBytes P)).1.length = 256 := by
  rw [(firstColumn_heads 0 0 (countBytes P)).1, countBytes_length]

/-! ### The queues (R163) -/

theorem queueOf_length (P : List Byte) (v : Nat) : (queueOf P v).length = cntOf P v := by
  induction P using List.reverseRecOn with
  | nil => simp [queueOf, cntOf]
  | append_singleton P b ih =>
    have hq : queueOf (P ++ [b]) v = queueOf P v ++ if b.toNat = v then [P.length] else [] := by
      simp only [queueOf, List.length_append, List.length_singleton, List.range_succ, List.filter_append]
      congr 1
      · apply List.filter_congr
        intro j hj
        rw [List.getD_append _ _ _ _ (List.mem_range.mp hj)]
      · rw [List.filter_cons, List.getD_append_right _ _ _ _ (Nat.le_refl _)]
        simp
    rw [hq, List.length_append, ih]
    simp only [cntOf, List.map_append, List.map_cons, List.map_nil, List.count_append, List.count_singleton, beq_iff_eq]
    split <;> simp

theorem mem_queueOf {P : List Byte} {v j : Nat} : j ∈ queueOf P v ↔ j < P.length ∧ (P.getD j 0).toNat = v := by
  simp [queueOf]

/-- The next position of a value is where its queue goes on. -/
theorem queueOf_getD_next (A : List Byte) (b : Byte) (B : List Byte) :
    (queueOf (A ++ b :: B) b.toNat).getD (cntOf A b.toNat) 0 = A.length := by
  have h : queueOf (A ++ b :: B) b.toNat =
      queueOf A b.toNat ++ A.length :: ((List.range' (A.length + 1) B.length).filter fun j =>
        ((A ++ b :: B).getD j 0).toNat = b.toNat) := by
    simp only [queueOf, List.length_append, List.length_cons, List.range_eq_range']
    rw [show A.length + (B.length + 1) = A.length + (1 + B.length) by omega, ← List.range'_append_1,
      ← List.range'_append_1, List.filter_append, List.filter_append]
    congr 1
    · apply List.filter_congr
      intro j hj
      have hj' : j < A.length := by
        have := List.mem_range'_1.mp hj
        omega
      rw [List.getD_append _ _ _ _ hj']
    · simp
  rw [h, List.getD_append_right _ _ _ _ (by rw [queueOf_length]), queueOf_length, Nat.sub_self]
  rfl

/-! ### The LF mapping (R163, R164, R165) -/

theorem cntOf_append (A B : List Byte) (v : Nat) : cntOf (A ++ B) v = cntOf A v + cntOf B v := by
  simp [cntOf]

theorem cntOf_cons (b : Byte) (B : List Byte) (v : Nat) :
    cntOf (b :: B) v = cntOf B v + if b.toNat = v then 1 else 0 := by
  simp [cntOf, List.count_cons]

/-- The fourth loop after it has treated `A` of the payload `A ++ B`. -/
structure MapInv (P A : List Byte) (head nxt : List Nat) : Prop where
  headLen : head.length = 256
  nxtLen : nxt.length = P.length
  heads : ∀ v, v < 256 → head.getD v 0 = baseOf P v + cntOf A v
  rows : ∀ v t, v < 256 → t < cntOf A v → nxt.getD (baseOf P v + t) 0 = (queueOf P v).getD t 0

theorem mapLoop_inv {P : List Byte} (B : List Byte) : ∀ (A : List Byte) (head nxt : List Nat), P = A ++ B →
    MapInv P A head nxt → MapInv P P (mapLoop A.length B head nxt).1 (mapLoop A.length B head nxt).2 := by
  induction B with
  | nil =>
    intro A head nxt hP h
    simp only [List.append_nil] at hP
    subst hP
    exact h
  | cons b B ih =>
    intro A head nxt hP h
    have hb : b.toNat < 256 := b.isLt
    have hcnt : cntOf P b.toNat = cntOf A b.toNat + cntOf B b.toNat + 1 := by
      rw [hP, cntOf_append, cntOf_cons, if_pos rfl]
      omega
    have hrow : baseOf P b.toNat + cntOf A b.toNat < P.length := by
      have := block_le_length P hb
      omega
    have hcA : ∀ v, cntOf (A ++ [b]) v = cntOf A v + if b.toNat = v then 1 else 0 := fun v => by
      rw [cntOf_append, cntOf_cons]
      simp [cntOf]
    have key := ih (A ++ [b]) (head.modify b.toNat (· + 1)) (nxt.set (head.getD b.toNat 0) A.length)
      (by rw [hP]; simp)
      { headLen := by simpa using h.headLen
        nxtLen := by simpa using h.nxtLen
        heads := by
          intro v hv
          have h3 : v < (head.modify b.toNat (· + 1)).length := by simp [h.headLen, hv]
          have h4 := h.heads v hv
          rw [List.getD_eq_getElem _ _ (by rw [h.headLen]; exact hv)] at h4
          rw [List.getD_eq_getElem _ _ h3, List.getElem_modify, hcA, h4]
          split <;> simp_all
          omega
        rows := by
          intro v t hv ht
          rw [hcA] at ht
          rw [h.heads b.toNat hb]
          by_cases hv' : b.toNat = v ∧ t = cntOf A v
          · obtain ⟨h5, h6⟩ := hv'
            subst h6
            subst h5
            rw [List.getD_eq_getElem?_getD, List.getElem?_set_self (by rw [h.nxtLen]; exact hrow)]
            rw [hP]
            exact (queueOf_getD_next A b B).symm
          · have ht' : t < cntOf A v := by
              by_cases h5 : b.toNat = v
              · rw [if_pos h5] at ht
                have : t ≠ cntOf A v := fun h6 => hv' ⟨h5, h6⟩
                omega
              · rw [if_neg h5] at ht
                omega
            have hne : baseOf P b.toNat + cntOf A b.toNat ≠ baseOf P v + t := by
              rcases Nat.lt_trichotomy b.toNat v with h5 | h5 | h5
              · have := baseOf_block_lt P h5
                omega
              · subst h5
                omega
              · have h6 := baseOf_block_lt P h5
                have h7 : cntOf A v ≤ cntOf P v := by
                  rw [hP, cntOf_append]
                  omega
                omega
            rw [List.getD_eq_getElem?_getD, List.getElem?_set_ne hne, ← List.getD_eq_getElem?_getD]
            exact h.rows v t hv ht' }
    simp only [mapLoop]
    simpa using key

theorem mapLoop_final (P : List Byte) :
    MapInv P P (mapLoop 0 P (firstColumn 0 0 (countBytes P)).1 (List.replicate P.length 0)).1
      (mapLoop 0 P (firstColumn 0 0 (countBytes P)).1 (List.replicate P.length 0)).2 := by
  have := mapLoop_inv (P := P) P [] (firstColumn 0 0 (countBytes P)).1 (List.replicate P.length 0) (by simp)
    { headLen := by simp
      nxtLen := by simp
      heads := fun v hv => by rw [firstColumn_base P hv]; simp [cntOf]
      rows := fun v t _ ht => by simp [cntOf] at ht }
  simpa using this

/-- NEXT after the fourth loop is the LF mapping of R163. -/
theorem inverseMicro_isLfMap (P : List Byte) (fi : Nat) : IsLfMap P (inverseMicro P fi).nxt :=
  ⟨(mapLoop_final P).nxtLen, (mapLoop_final P).rows⟩

/-- FCOL is the first column of R162. -/
theorem inverseMicro_isFirstColumn (P : List Byte) (fi : Nat) : IsFirstColumn P (inverseMicro P fi).fcol :=
  firstColumn_isFirstColumn P

/-! ### Consequences of R163: P[next[i]] = F[i], and next is a permutation of [0, n) (R170) -/

theorem IsLfMap.row {P : List Byte} {next : List Nat} (h : IsLfMap P next) {i : Nat} (hi : i < P.length) :
    ∃ v t, v < 256 ∧ t < cntOf P v ∧ i = baseOf P v + t ∧ next.getD i 0 = (queueOf P v).getD t 0 ∧
      next.getD i 0 < P.length ∧ (P.getD (next.getD i 0) 0).toNat = v := by
  obtain ⟨v, t, hv, ht, he⟩ := exists_block P hi
  have hr := h.2 v t hv ht
  rw [← he] at hr
  have hm : (queueOf P v).getD t 0 ∈ queueOf P v := by
    rw [List.getD_eq_getElem _ _ (by rw [queueOf_length]; exact ht)]
    exact List.getElem_mem _
  obtain ⟨h1, h2⟩ := mem_queueOf.mp hm
  exact ⟨v, t, hv, ht, he, hr, by rw [hr]; exact h1, by rw [hr]; exact h2⟩

theorem IsLfMap.lt {P : List Byte} {next : List Nat} (h : IsLfMap P next) {i : Nat} (hi : i < P.length) :
    next.getD i 0 < P.length := by
  obtain ⟨v, t, -, -, -, -, h1, -⟩ := h.row hi
  exact h1

theorem IsFirstColumn.eq_payload {P F : List Byte} {next : List Nat} (hF : IsFirstColumn P F) (h : IsLfMap P next)
    {i : Nat} (hi : i < P.length) : F.getD i 0 = P.getD (next.getD i 0) 0 := by
  obtain ⟨v, t, hv, ht, he, -, -, h2⟩ := h.row hi
  have := hF.2 v i hv (by omega) (by omega)
  exact BitVec.eq_of_toNat_eq (by rw [this, h2])

theorem queueOf_pairwise (P : List Byte) (v : Nat) : (queueOf P v).Pairwise (· < ·) :=
  List.Pairwise.filter _ List.pairwise_lt_range

/-- Rows in increasing order name positions in increasing order of (byte, position). -/
theorem IsLfMap.sorted {P : List Byte} {next : List Nat} (h : IsLfMap P next) {i j : Nat} (hij : i < j)
    (hj : j < P.length) :
    (P.getD (next.getD i 0) 0).toNat < (P.getD (next.getD j 0) 0).toNat ∨
      (P.getD (next.getD i 0) 0).toNat = (P.getD (next.getD j 0) 0).toNat ∧ next.getD i 0 < next.getD j 0 := by
  obtain ⟨v, t, hv, ht, he, hr, -, h2⟩ := h.row (hij.trans hj)
  obtain ⟨w, u, hw, hu, he', hr', -, h2'⟩ := h.row hj
  rw [h2, h2']
  rcases Nat.lt_trichotomy v w with hvw | hvw | hvw
  · exact .inl hvw
  · subst hvw
    refine .inr ⟨rfl, ?_⟩
    have := List.pairwise_iff_getElem.mp (queueOf_pairwise P v) t u (by rw [queueOf_length]; exact ht)
      (by rw [queueOf_length]; exact hu) (by omega)
    rw [hr, hr', List.getD_eq_getElem _ _ (by rw [queueOf_length]; exact ht),
      List.getD_eq_getElem _ _ (by rw [queueOf_length]; exact hu)]
    exact this
  · have := baseOf_block_lt P hvw
    omega

theorem IsLfMap.perm {P : List Byte} {next : List Nat} (h : IsLfMap P next) : next.Perm (List.range P.length) := by
  have hnd : next.Nodup := by
    rw [List.nodup_iff_getElem?_ne_getElem?]
    intro i j hij hj
    have hj' : j < P.length := by rw [← h.1]; exact hj
    have h1 := h.sorted hij hj'
    intro he
    have : next.getD i 0 = next.getD j 0 := by simp [List.getD_eq_getElem?_getD, he]
    rw [this] at h1
    omega
  refine List.Subperm.perm_of_length_le ?_ (by simp [h.1])
  refine hnd.subperm fun x hx => ?_
  obtain ⟨i, hi, rfl⟩ := List.getElem_of_mem hx
  have := h.lt (i := i) (by rw [← h.1]; exact hi)
  rw [List.getD_eq_getElem _ _ hi] at this
  exact List.mem_range.mpr this

/-! ### The walk (R161) -/

theorem walk_length (F : List Byte) (next : List Nat) (k pos : Nat) : (walk F next k pos).length = k := by
  induction k generalizing pos with
  | zero => rfl
  | succ k ih => simp [walk, ih]

theorem posAt_succ' (next : List Nat) (fi k : Nat) : posAt next fi (k + 1) = posAt next (next.getD fi 0) k := by
  induction k with
  | zero => rfl
  | succ k ih => rw [posAt, ih, posAt]

theorem walk_getD (F : List Byte) (next : List Nat) (k pos j : Nat) (hj : j < k) :
    (walk F next k pos).getD j 0 = F.getD (posAt next pos j) 0 := by
  induction k generalizing pos j with
  | zero => omega
  | succ k ih =>
    cases j with
    | zero => rfl
    | succ j =>
      simp only [walk, List.getD_cons_succ]
      rw [ih _ j (by omega), posAt_succ']

@[simp] theorem inverseMicro_out_length (P : List Byte) (fi : Nat) : (inverseMicro P fi).out.length = P.length :=
  walk_length _ _ _ _

/-- DSTBUF[k] = F[pos_k] (R161). -/
theorem inverseMicro_out_getD (P : List Byte) (fi : Nat) {k : Nat} (hk : k < P.length) :
    (inverseMicro P fi).out.getD k 0 = (inverseMicro P fi).fcol.getD (posAt (inverseMicro P fi).nxt fi k) 0 :=
  walk_getD _ _ _ _ _ hk

@[simp] theorem inverseMicro_nxt_length (P : List Byte) (fi : Nat) : (inverseMicro P fi).nxt.length = P.length :=
  (inverseMicro_isLfMap P fi).1

@[simp] theorem inverseMicro_fcol_length (P : List Byte) (fi : Nat) : (inverseMicro P fi).fcol.length = P.length :=
  (inverseMicro_isFirstColumn P fi).1

@[simp] theorem inverseMicro_cnt_length (P : List Byte) (fi : Nat) : (inverseMicro P fi).cnt.length = 256 :=
  countBytes_length P

@[simp] theorem inverseMicro_head_length (P : List Byte) (fi : Nat) : (inverseMicro P fi).head.length = 256 :=
  (mapLoop_final P).headLen

end Sys2Proof.Machine
end

