-- ==== Sys2Proof/Laws/Rotation.lean ====
section
/-! SUPPORT. The order of rotations as a linear order on keys, and LESS as that order (00_scope.md R12, R13;
40_suffix_sorter.md R121, R128). -/

namespace Sys2Proof.Machine

/-! ### Rotations -/

@[simp] theorem rot_length (S : List Byte) (k : Nat) : (rot S k).length = S.length := by simp [rot]

theorem rot_getD (S : List Byte) (k : Nat) {t : Nat} (h : t < S.length) : (rot S k).getD t 0 = circByte S k t := by
  simp [rot, h]

theorem rot_eq_iff (S : List Byte) (a b : Nat) :
    rot S a = rot S b ↔ ∀ t, t < S.length → circByte S a t = circByte S b t := by
  constructor
  · intro h t ht
    rw [← rot_getD S a ht, ← rot_getD S b ht, h]
  · intro h
    exact List.map_congr_left fun t ht => h t (List.mem_range.mp ht)

theorem lexLt_rot_iff (S : List Byte) (a b : Nat) :
    lexLt (rot S a) (rot S b) ↔
      ∃ t, t < S.length ∧ (∀ u, u < t → circByte S a u = circByte S b u) ∧
        (circByte S a t).toNat < (circByte S b t).toNat := by
  simp only [lexLt, rot_length]
  constructor
  · rintro ⟨t, ht, he, hl⟩
    refine ⟨t, ht, fun u hu => ?_, ?_⟩
    · rw [← rot_getD S a (hu.trans ht), ← rot_getD S b (hu.trans ht), he u hu]
    · rw [← rot_getD S a ht, ← rot_getD S b ht]
      exact hl
  · rintro ⟨t, ht, he, hl⟩
    refine ⟨t, ht, fun u hu => ?_, ?_⟩
    · rw [rot_getD S a (hu.trans ht), rot_getD S b (hu.trans ht), he u hu]
    · rw [rot_getD S a ht, rot_getD S b ht]
      exact hl

/-! ### Keys -/

/-- A byte sequence as numbers: lexLt is the list order on these. -/
def nats (X : List Byte) : List Nat := X.map BitVec.toNat

theorem nats_injective : Function.Injective nats :=
  List.map_injective_iff.mpr fun _ _ h => BitVec.eq_of_toNat_eq h

theorem lexLt_iff_nats {X Y : List Byte} (h : X.length = Y.length) : lexLt X Y ↔ nats X < nats Y := by
  rw [List.lt_iff_exists]
  constructor
  · rintro ⟨t, ht, he, hl⟩
    have ht' : t < Y.length := h ▸ ht
    refine .inr ⟨t, by simpa [nats] using ht, by simpa [nats] using ht', fun j hj => ?_, ?_⟩
    · have := he j hj
      rw [List.getD_eq_getElem _ _ (hj.trans ht), List.getD_eq_getElem _ _ (hj.trans ht')] at this
      simp [nats, this]
    · rw [List.getD_eq_getElem _ _ ht, List.getD_eq_getElem _ _ ht'] at hl
      simpa [nats] using hl
  · rintro (⟨-, hl⟩ | ⟨t, ht, ht', he, hl⟩)
    · simp [nats, h] at hl
    · simp only [nats, List.length_map] at ht ht'
      refine ⟨t, ht, fun j hj => ?_, ?_⟩
      · have := he j hj
        simp only [nats, List.getElem_map] at this
        rw [List.getD_eq_getElem _ _ (hj.trans ht), List.getD_eq_getElem _ _ (hj.trans ht')]
        exact BitVec.eq_of_toNat_eq this
      · rw [List.getD_eq_getElem _ _ ht, List.getD_eq_getElem _ _ ht']
        simpa [nats] using hl

/-- The key `(rot(S, k), k)` of R121, in a linear order. -/
def rotKey (S : List Byte) (k : Nat) : List Nat ×ₗ Nat := toLex (nats (rot S k), k)

theorem rotKeyLt_iff (S : List Byte) (a b : Nat) : rotKeyLt S a b ↔ rotKey S a < rotKey S b := by
  rw [rotKey, rotKey, Prod.Lex.toLex_lt_toLex, rotKeyLt, lexLt_iff_nats (by simp)]
  constructor
  · rintro (h | ⟨h, hl⟩)
    · exact .inl h
    · exact .inr ⟨congrArg nats h, hl⟩
  · rintro (h | ⟨h, hl⟩)
    · exact .inl h
    · exact .inr ⟨nats_injective h, hl⟩

theorem rotKey_injective (S : List Byte) : Function.Injective (rotKey S) := fun a b h => by
  have : (nats (rot S a), a) = (nats (rot S b), b) := toLex.injective h
  exact congrArg Prod.snd this

theorem lexLt_irrefl (X : List Byte) : ¬ lexLt X X := by
  rintro ⟨t, -, -, hl⟩
  exact Nat.lt_irrefl _ hl

theorem lexLt_trichotomy {X Y : List Byte} (h : X.length = Y.length) : lexLt X Y ∨ X = Y ∨ lexLt Y X := by
  rw [lexLt_iff_nats h, lexLt_iff_nats h.symm]
  rcases lt_trichotomy (nats X) (nats Y) with h | h | h
  · exact .inl h
  · exact .inr (.inl (nats_injective h))
  · exact .inr (.inr h)

/-! ### LESS is the order of R121 (R128) -/

theorem lessFrom_iff (S : List Byte) (a b fuel t : Nat) (hf : fuel + t = S.length)
    (he : ∀ u, u < t → circByte S a u = circByte S b u) :
    lessFrom S a b fuel t = true ↔ rotKeyLt S a b := by
  induction fuel generalizing t with
  | zero =>
    have heq : rot S a = rot S b := (rot_eq_iff S a b).mpr fun u hu => he u (by omega)
    simp only [lessFrom, decide_eq_true_eq, rotKeyLt, heq, true_and]
    exact ⟨.inr, fun h => h.resolve_left (lexLt_irrefl _)⟩
  | succ fuel ih =>
    simp only [lessFrom]
    split
    · rename_i hlt
      simp only [true_iff]
      exact .inl ((lexLt_rot_iff S a b).mpr ⟨t, by omega, he, hlt⟩)
    · split
      · rename_i hnlt hlt
        simp only [Bool.false_eq_true, false_iff, rotKeyLt_iff, not_lt]
        apply le_of_lt
        rw [← rotKeyLt_iff]
        exact .inl ((lexLt_rot_iff S b a).mpr ⟨t, by omega, fun u hu => (he u hu).symm, hlt⟩)
      · rename_i h1 h2
        apply ih (t + 1) (by omega)
        intro u hu
        rcases Nat.lt_succ_iff_lt_or_eq.mp hu with hu | hu
        · exact he u hu
        · subst hu
          exact BitVec.eq_of_toNat_eq (by omega)

/-- LESS(a, b, d) on offsets whose rotations agree on the first d positions. -/
theorem less_iff (S : List Byte) (a b d : Nat) (hd : d ≤ S.length)
    (he : ∀ u, u < d → circByte S a u = circByte S b u) : less S a b d = true ↔ rotKeyLt S a b :=
  lessFrom_iff S a b _ d (by omega) he

/-- A smaller character at the first difference decides the order (R122). -/
theorem rotKeyLt_of_charAt {S : List Byte} {a b d : Nat} (hd : d < S.length)
    (he : ∀ u, u < d → circByte S a u = circByte S b u) (hl : charAt S a d < charAt S b d) : rotKeyLt S a b := by
  simp only [charAt, hd, if_true, Int.ofNat_lt] at hl
  exact .inl ((lexLt_rot_iff S a b).mpr ⟨d, hd, he, hl⟩)

theorem circByte_eq_of_charAt {S : List Byte} {a b d : Nat} (hd : d < S.length) (h : charAt S a d = charAt S b d) :
    circByte S a d = circByte S b d := by
  simp only [charAt, hd, if_true, Int.ofNat_inj] at h
  exact BitVec.eq_of_toNat_eq h

end Sys2Proof.Machine
end

