-- ==== Sys2Proof/Laws/SorterSteps.lean ====
section
/-! SUPPORT. What the loops of SORT_MICRO do to a segment of ORD: they exchange its elements, INSERTION sorts it, PARTITION
splits it into three buckets (40_suffix_sorter.md R126, R128, R129). A segment is a first position and a size. -/

namespace Sys2Proof.Machine

/-! ### Exchanges inside a segment -/

theorem swapAt_getD {o : List Nat} {i j : Nat} (hi : i < o.length) (hj : j < o.length) (x : Nat) :
    (swapAt o i j).getD x 0 = if x = j then o.getD i 0 else if x = i then o.getD j 0 else o.getD x 0 := by
  simp only [swapAt, List.getD_eq_getElem?_getD, List.getElem?_set, List.length_set]
  by_cases h1 : x = j
  · subst h1; simp [hj]
  · by_cases h2 : x = i
    · subst h2; simp [h1, Ne.symm h1, hi]
    · simp [h1, h2, Ne.symm h1, Ne.symm h2]

@[simp] theorem swapAt_length (o : List Nat) (i j : Nat) : (swapAt o i j).length = o.length := by simp [swapAt]

theorem swapAt_perm {o : List Nat} {i j : Nat} (hi : i < o.length) (hj : j < o.length) : (swapAt o i j).Perm o := by
  have := List.set_set_perm hi hj
  simpa [swapAt, hi, hj] using this

/-- `p` comes from `o` by exchanges of elements of the segment that begins at `lo` and has `sz` elements. -/
inductive Swaps (lo sz : Nat) (o : List Nat) : List Nat → Prop where
  | refl : Swaps lo sz o o
  | swap {p : List Nat} (i j : Nat) : Swaps lo sz o p → lo ≤ i → i < lo + sz → lo ≤ j → j < lo + sz →
      Swaps lo sz o (swapAt p i j)

theorem Swaps.trans {lo sz : Nat} {o p q : List Nat} (h1 : Swaps lo sz o p) (h2 : Swaps lo sz p q) :
    Swaps lo sz o q := by
  induction h2 with
  | refl => exact h1
  | swap i j _ a b c d ih => exact ih.swap i j a b c d

theorem Swaps.widen {lo sz lo' sz' : Nat} {o p : List Nat} (h : Swaps lo sz o p) (h1 : lo' ≤ lo)
    (h2 : lo + sz ≤ lo' + sz') : Swaps lo' sz' o p := by
  induction h with
  | refl => exact .refl
  | swap i j _ a b c d ih => exact ih.swap i j (by omega) (by omega) (by omega) (by omega)

theorem Swaps.length {lo sz : Nat} {o p : List Nat} (h : Swaps lo sz o p) : p.length = o.length := by
  induction h with
  | refl => rfl
  | swap i j _ _ _ _ _ ih => simpa using ih

theorem Swaps.perm {lo sz : Nat} {o p : List Nat} (h : Swaps lo sz o p) (hl : lo + sz ≤ o.length) : p.Perm o := by
  induction h with
  | refl => exact .refl _
  | swap i j hp _ _ _ _ ih =>
    have := hp.length
    exact (swapAt_perm (by omega) (by omega)).trans ih

/-- Elements outside the segment stay. -/
theorem Swaps.outside {lo sz : Nat} {o p : List Nat} (h : Swaps lo sz o p) (hl : lo + sz ≤ o.length) {x : Nat}
    (hx : x < lo ∨ lo + sz ≤ x) : p.getD x 0 = o.getD x 0 := by
  induction h with
  | refl => rfl
  | swap i j hp _ _ _ _ ih =>
    have := hp.length
    rw [swapAt_getD (by omega) (by omega), if_neg (by omega), if_neg (by omega), ih]

/-- What holds of every element of the segment goes on holding. -/
theorem Swaps.keeps {lo sz : Nat} {o p : List Nat} (h : Swaps lo sz o p) (hl : lo + sz ≤ o.length)
    {P : Nat → Prop} (hP : ∀ x, lo ≤ x → x < lo + sz → P (o.getD x 0)) :
    ∀ x, lo ≤ x → x < lo + sz → P (p.getD x 0) := by
  induction h with
  | refl => exact hP
  | swap i j hp _ _ _ _ ih =>
    have := hp.length
    intro x h1 h2
    rw [swapAt_getD (by omega) (by omega)]
    split
    · exact ih _ (by omega) (by omega)
    · split
      · exact ih _ (by omega) (by omega)
      · exact ih _ h1 h2

/-! ### Sorted segments and agreeing segments -/

/-- The segment is in the order of R121. -/
def SortedSeg (S : List Byte) (lo sz : Nat) (o : List Nat) : Prop :=
  ∀ x y, lo ≤ x → x < y → y < lo + sz → rotKey S (o.getD x 0) < rotKey S (o.getD y 0)

/-- All rotations of the segment agree with rot(S, a) on the positions below `d`. -/
def AgreeSeg (S : List Byte) (a d lo sz : Nat) (o : List Nat) : Prop :=
  ∀ x, lo ≤ x → x < lo + sz → ∀ u, u < d → circByte S (o.getD x 0) u = circByte S a u

theorem AgreeSeg.of_swaps {S : List Byte} {a d lo sz : Nat} {o p : List Nat} (h : AgreeSeg S a d lo sz o)
    (hs : Swaps lo sz o p) (hl : lo + sz ≤ o.length) : AgreeSeg S a d lo sz p :=
  hs.keeps (P := fun e => ∀ u, u < d → circByte S e u = circByte S a u) hl h

theorem SortedSeg.small {S : List Byte} {lo sz : Nat} {o : List Nat} (h : sz < 2) : SortedSeg S lo sz o := by
  intro x y h1 h2 h3
  omega

theorem SortedSeg.of_outside {S : List Byte} {lo sz lo' sz' : Nat} {o p : List Nat} (h : SortedSeg S lo sz o)
    (hs : Swaps lo' sz' o p) (hl : lo' + sz' ≤ o.length) (hd : lo + sz ≤ lo' ∨ lo' + sz' ≤ lo) :
    SortedSeg S lo sz p := by
  intro x y h1 h2 h3
  rw [hs.outside hl (by omega), hs.outside hl (by omega)]
  exact h x y h1 h2 h3

theorem getD_ne_of_nodup {o : List Nat} (hn : o.Nodup) {x y : Nat} (hx : x < o.length) (hy : y < o.length)
    (h : x ≠ y) : o.getD x 0 ≠ o.getD y 0 := by
  rw [List.getD_eq_getElem _ _ hx, List.getD_eq_getElem _ _ hy]
  exact fun he => h ((List.Nodup.getElem_inj_iff hn).mp he)

/-! ### Insertion sort (R128) -/

/-- The state of the inner loop of INSERTION: the segment is in order except for the element at position `j`, which is
smaller than everything after it. -/
structure SinkInv (S : List Byte) (lo sz j : Nat) (o : List Nat) : Prop where
  rest : ∀ x y, lo ≤ x → x < y → y < lo + sz → x ≠ j → y ≠ j → rotKey S (o.getD x 0) < rotKey S (o.getD y 0)
  after : ∀ y, j < y → y < lo + sz → rotKey S (o.getD j 0) < rotKey S (o.getD y 0)

theorem sink_sorts {S : List Byte} {a d lo sz : Nat} (hd : d ≤ S.length) :
    ∀ (j : Nat) (o : List Nat), lo ≤ j → j < lo + sz → lo + sz ≤ o.length → o.Nodup → AgreeSeg S a d lo sz o →
      SinkInv S lo sz j o → SortedSeg S lo sz (sink S lo d j o) ∧ Swaps lo sz o (sink S lo d j o) := by
  intro j
  induction j with
  | zero =>
    intro o h1 h2 h3 hn ha hi
    refine ⟨?_, .refl⟩
    intro x y hx hxy hy
    simp only [sink]
    by_cases hx0 : x = 0
    · subst hx0
      exact hi.after y hxy hy
    · exact hi.rest x y hx hxy hy hx0 (by omega)
  | succ j ih =>
    intro o h1 h2 h3 hn ha hi
    simp only [sink]
    have hless : lo < j + 1 → (less S (o.getD (j + 1) 0) (o.getD j 0) d = true ↔
        rotKey S (o.getD (j + 1) 0) < rotKey S (o.getD j 0)) := by
      intro hlo
      rw [← rotKeyLt_iff]
      apply less_iff S _ _ d hd
      intro u hu
      rw [ha (j + 1) (by omega) h2 u hu, ha j (by omega) (by omega) u hu]
    split
    · rename_i hc
      have hlt := (hless hc.1).mp hc.2
      have hg := swapAt_getD (o := o) (i := j + 1) (j := j) (by omega) (by omega)
      have hperm := swapAt_perm (o := o) (i := j + 1) (j := j) (by omega) (by omega)
      have hsw : Swaps lo sz o (swapAt o (j + 1) j) :=
        Swaps.refl.swap (j + 1) j h1 h2 (by omega) (by omega)
      have hi' : SinkInv S lo sz j (swapAt o (j + 1) j) := by
        constructor
        · intro x y hx hxy hy hxj hyj
          rw [hg, hg, if_neg hxj, if_neg hyj]
          by_cases hx1 : x = j + 1
          · subst hx1
            rw [if_pos rfl, if_neg (by omega)]
            exact hi.rest j y (by omega) (by omega) hy (by omega) (by omega)
          · rw [if_neg hx1]
            by_cases hy1 : y = j + 1
            · subst hy1
              rw [if_pos rfl]
              exact hi.rest x j hx (by omega) (by omega) (by omega) (by omega)
            · rw [if_neg hy1]
              exact hi.rest x y hx hxy hy hx1 hy1
        · intro y hjy hy
          rw [hg, hg, if_pos rfl, if_neg (by omega)]
          by_cases hy1 : y = j + 1
          · rw [if_pos hy1]
            exact hlt
          · rw [if_neg hy1]
            exact hi.after y (by omega) hy
      obtain ⟨r1, r2⟩ := ih (swapAt o (j + 1) j) (by omega) (by omega) (by simpa using h3)
        (hperm.nodup_iff.mpr hn) (ha.of_swaps hsw h3) hi'
      exact ⟨r1, hsw.trans r2⟩
    · rename_i hc
      refine ⟨?_, .refl⟩
      intro x y hx hxy hy
      by_cases hxj : x = j + 1
      · subst hxj
        exact hi.after y hxy hy
      · by_cases hyj : y = j + 1
        · subst hyj
          have hlo : lo < j + 1 := by omega
          have hnl : ¬ rotKey S (o.getD (j + 1) 0) < rotKey S (o.getD j 0) := fun h =>
            hc ⟨hlo, (hless hlo).mpr h⟩
          have hne : rotKey S (o.getD j 0) ≠ rotKey S (o.getD (j + 1) 0) := fun h =>
            getD_ne_of_nodup hn (x := j) (y := j + 1) (by omega) (by omega) (by omega) (rotKey_injective S h)
          have hj : rotKey S (o.getD j 0) < rotKey S (o.getD (j + 1) 0) := lt_of_le_of_ne (not_lt.mp hnl) hne
          by_cases hxj' : x = j
          · rw [hxj']
            exact hj
          · exact (hi.rest x j hx (by omega) (by omega) (by omega) (by omega)).trans hj
        · exact hi.rest x y hx hxy hy hxj hyj

theorem insertion_aux {S : List Byte} {a d lo sz : Nat} (hd : d ≤ S.length) :
    ∀ (m k : Nat) (o : List Nat), k + m ≤ sz → 1 ≤ k → lo + sz ≤ o.length → o.Nodup → AgreeSeg S a d lo sz o →
      SortedSeg S lo k o →
      SortedSeg S lo (k + m) ((List.range' (lo + k) m).foldl (fun o i => sink S lo d i o) o) ∧
        Swaps lo sz o ((List.range' (lo + k) m).foldl (fun o i => sink S lo d i o) o) := by
  intro m
  induction m with
  | zero =>
    intro k o h1 h2 h3 hn ha hs
    exact ⟨hs, .refl⟩
  | succ m ih =>
    intro k o h1 h2 h3 hn ha hs
    simp only [List.range'_succ, List.foldl_cons]
    have hinv : SinkInv S lo (k + 1) (lo + k) o := by
      constructor
      · intro x y hx hxy hy hxj hyj
        exact hs x y hx hxy (by omega)
      · intro y h4 h5
        omega
    obtain ⟨r1, r2⟩ := sink_sorts (a := a) hd (lo + k) o (by omega) (by omega) (by omega) hn
      (fun x hx hx' => ha x hx (by omega)) hinv
    have r2' : Swaps lo sz o (sink S lo d (lo + k) o) := r2.widen (Nat.le_refl _) (by omega)
    have hlen := r2'.length
    obtain ⟨q1, q2⟩ := ih (k + 1) (sink S lo d (lo + k) o) (by omega) (by omega) (by omega)
      ((r2'.perm h3).nodup_iff.mpr hn) (ha.of_swaps r2' h3) r1
    refine ⟨?_, r2'.trans q2⟩
    have : k + (m + 1) = k + 1 + m := by omega
    rw [this]
    exact q1

/-- INSERTION(lo, hi, d) puts the segment lo..hi in the order of R121. -/
theorem insertion_sorts {S : List Byte} {a d lo hi : Nat} {o : List Nat} (hd : d ≤ S.length) (hlo : lo ≤ hi)
    (hl : hi < o.length) (hn : o.Nodup) (ha : AgreeSeg S a d lo (hi - lo + 1) o) :
    SortedSeg S lo (hi - lo + 1) (insertion S lo hi d o) ∧ Swaps lo (hi - lo + 1) o (insertion S lo hi d o) := by
  obtain ⟨r1, r2⟩ := insertion_aux (S := S) (lo := lo) (sz := hi - lo + 1) hd (hi - lo) 1 o (by omega) (by omega)
    (by omega) hn ha (SortedSeg.small (by omega))
  refine ⟨?_, r2⟩
  rw [Nat.add_comm (hi - lo) 1]
  exact r1

/-! ### Partition (R126) -/

/-- The state of PARTITION's loop: characters below, equal to and above the pivot on the treated positions. -/
structure SplitInv (S : List Byte) (d : Nat) (v : Int) (lo hi lt i gt : Nat) (o : List Nat) : Prop where
  loLt : lo ≤ lt
  ltI : lt < i
  iGt : i ≤ gt + 1
  gtHi : gt ≤ hi
  below : ∀ x, lo ≤ x → x < lt → charAt S (o.getD x 0) d < v
  equal : ∀ x, lt ≤ x → x < i → charAt S (o.getD x 0) d = v
  above : ∀ x, gt < x → x ≤ hi → v < charAt S (o.getD x 0) d

theorem partitionLoop_splits {S : List Byte} {d : Nat} {v : Int} {lo hi : Nat} :
    ∀ (fuel lt i gt : Nat) (o : List Nat), gt + 1 ≤ i + fuel → hi < o.length →
      SplitInv S d v lo hi lt i gt o →
      let p := partitionLoop S d v fuel lt i gt o
      SplitInv S d v lo hi p.1 (p.2.1 + 1) p.2.1 p.2.2 ∧ Swaps lo (hi - lo + 1) o p.2.2 := by
  intro fuel
  induction fuel with
  | zero =>
    intro lt i gt o hf hl h
    have hi' : i = gt + 1 := Nat.le_antisymm h.iGt hf
    subst hi'
    exact ⟨h, .refl⟩
  | succ fuel ih =>
    intro lt i gt o hf hl h
    obtain ⟨a1, a2, a3, a4, hb, he, hab⟩ := h
    simp only [partitionLoop]
    split
    · rename_i hig
      split
      · rename_i hlt
        have hg := swapAt_getD (o := o) (i := lt) (j := i) (by omega) (by omega)
        have hsw : Swaps lo (hi - lo + 1) o (swapAt o lt i) :=
          Swaps.refl.swap lt i (by omega) (by omega) (by omega) (by omega)
        have hinv : SplitInv S d v lo hi (lt + 1) (i + 1) gt (swapAt o lt i) := by
          refine ⟨by omega, by omega, by omega, a4, ?_, ?_, ?_⟩
          · intro x h1 h2
            rw [hg, if_neg (by omega)]
            split
            · exact hlt
            · exact hb x h1 (by omega)
          · intro x h1 h2
            rw [hg]
            split
            · exact he lt (by omega) (by omega)
            · rw [if_neg (by omega)]
              exact he x (by omega) (by omega)
          · intro x h1 h2
            rw [hg, if_neg (by omega), if_neg (by omega)]
            exact hab x h1 h2
        obtain ⟨r1, r2⟩ := ih (lt + 1) (i + 1) gt (swapAt o lt i) (by omega) (by simpa using hl) hinv
        exact ⟨r1, hsw.trans r2⟩
      · split
        · rename_i hnlt hgt
          have hg := swapAt_getD (o := o) (i := i) (j := gt) (by omega) (by omega)
          have hsw : Swaps lo (hi - lo + 1) o (swapAt o i gt) :=
            Swaps.refl.swap i gt (by omega) (by omega) (by omega) (by omega)
          have hinv : SplitInv S d v lo hi lt i (gt - 1) (swapAt o i gt) := by
            refine ⟨a1, a2, by omega, by omega, ?_, ?_, ?_⟩
            · intro x h1 h2
              rw [hg, if_neg (by omega), if_neg (by omega)]
              exact hb x h1 h2
            · intro x h1 h2
              rw [hg, if_neg (by omega), if_neg (by omega)]
              exact he x h1 h2
            · intro x h1 h2
              rw [hg]
              split
              · exact hgt
              · rw [if_neg (by omega)]
                exact hab x (by omega) h2
          obtain ⟨r1, r2⟩ := ih lt i (gt - 1) (swapAt o i gt) (by omega) (by simpa using hl) hinv
          exact ⟨r1, hsw.trans r2⟩
        · rename_i hnlt hngt
          have hinv : SplitInv S d v lo hi lt (i + 1) gt o := by
            refine ⟨a1, by omega, by omega, a4, hb, ?_, hab⟩
            intro x h1 h2
            by_cases hx : x = i
            · subst hx
              exact Int.le_antisymm (not_lt.mp hngt) (not_lt.mp hnlt)
            · exact he x h1 (by omega)
          exact ih lt (i + 1) gt o (by omega) hl hinv
    · have hi' : i = gt + 1 := by omega
      subst hi'
      exact ⟨⟨a1, a2, a3, a4, hb, he, hab⟩, .refl⟩

/-- PARTITION(lo, hi, d) (R126): on return lo <= lt <= gt <= hi, and the three buckets hold the characters below, equal
to and above the pivot's. -/
theorem partitionRange_splits {S : List Byte} {d lo hi : Nat} {o : List Nat} (hlo : lo ≤ hi) (hl : hi < o.length) :
    let p := partitionRange S lo hi d o
    SplitInv S d (charAt S (o.getD lo 0) d) lo hi p.1 (p.2.1 + 1) p.2.1 p.2.2 ∧ Swaps lo (hi - lo + 1) o p.2.2 := by
  apply partitionLoop_splits (hi - lo) lo (lo + 1) hi o (by omega) hl
  refine ⟨Nat.le_refl _, by omega, by omega, Nat.le_refl _, ?_, ?_, ?_⟩
  · intro x h1 h2
    omega
  · intro x h1 h2
    have : x = lo := by omega
    rw [this]
  · intro x h1 h2
    omega

end Sys2Proof.Machine
end

