-- ==== Sys2Proof/Laws/Sorter.lean ====
section
/-! SUPPORT. SORT_MICRO is right: it ends with SP = 0 within its bound of rounds, ORD[0..n) is the order of R121, and STACK
is written below floor(n/2) only (40_suffix_sorter.md R127, R130, R131, R134). -/

namespace Sys2Proof.Machine

/-! ### The work stack -/

/-- The stack entry of a range of natural numbers. -/
def entryOf (lo hi d : Nat) : StackEntry := ⟨BitVec.ofNat 32 lo, BitVec.ofNat 32 hi, BitVec.ofNat 32 d⟩

theorem stackRead_set (gen : Nat) (m : Memory StackEntry) (i x : Nat) (e : StackEntry) :
    stackRead gen (Memory.set m i e) x = if i = x then e else stackRead gen m x := by
  simp only [stackRead, Memory.get?_set]
  split <;> rfl

/-- How many entries a bucket of a given size puts on the stack (R125). -/
def pushes (sz : Nat) : Nat := if 2 ≤ sz then 1 else 0

theorem pushes_le (sz : Nat) : pushes sz ≤ sz / 2 := by
  unfold pushes
  split <;> omega

/-- All that `pushBucket` does. -/
theorem pushBucket_spec (gen sz lo hi d : Nat) (r : SorterRun) :
    (pushBucket sz lo hi d r).sp = r.sp + pushes sz ∧
    (pushBucket sz lo hi d r).ord = r.ord ∧
    (∀ x, x < r.sp → stackRead gen (pushBucket sz lo hi d r).stack x = stackRead gen r.stack x) ∧
    (2 ≤ sz → stackRead gen (pushBucket sz lo hi d r).stack r.sp = entryOf lo hi d) ∧
    (∀ B, r.stack.wf B = true → r.sp + pushes sz ≤ B → (pushBucket sz lo hi d r).stack.wf B = true) := by
  unfold pushBucket pushes
  split
  · refine ⟨rfl, rfl, ?_, ?_, ?_⟩
    · intro x hx
      simp only [push, stackRead_set]
      rw [if_neg (by omega)]
    · intro _
      simp [push, stackRead_set, entryOf]
    · intro B h1 h2
      exact Memory.wf_set _ (by omega) h1
  · exact ⟨rfl, rfl, fun _ _ => rfl, fun h => absurd h (by omega), fun B h1 _ => h1⟩

/-! ### What treating one range amounts to -/

/-- From `r` the main loop comes, in at most `K` rounds, to `r'`: the segment is sorted by exchanges inside it, the entries
below `q` are as before, and the stack was written below `q + sz/2` only. -/
structure Processed (S : List Byte) (gen lo sz q K : Nat) (r r' : SorterRun) : Prop where
  fuel : ∃ k, k ≤ K ∧ ∀ f, sortLoop S gen (f + k) r = sortLoop S gen f r'
  sp : r'.sp = q
  swaps : Swaps lo sz r.ord r'.ord
  sorted : SortedSeg S lo sz r'.ord
  below : ∀ x, x < q → stackRead gen r'.stack x = stackRead gen r.stack x
  keys : ∀ B, r.stack.wf B = true → q + sz / 2 ≤ B → r'.stack.wf B = true

/-- What `Processed` is proved for: every range whose weight is at most `N`. -/
def ProcessesUpTo (S : List Byte) (gen N : Nat) : Prop :=
  ∀ (lo sz d q a : Nat) (r : SorterRun), sz * (S.length - d + 1) ≤ N → 2 ≤ sz → lo + sz ≤ S.length → d ≤ S.length →
    r.ord.length = S.length → r.ord.Nodup → AgreeSeg S a d lo sz r.ord → r.sp = q + 1 →
    stackRead gen r.stack q = entryOf lo (lo + sz - 1) d →
    ∃ r', Processed S gen lo sz q (sz * (S.length - d + 1)) r r'

/-- A bucket that may be too small to have been pushed. -/
theorem process_bucket {S : List Byte} {gen N : Nat} (ih : ProcessesUpTo S gen N) {lo sz d q a : Nat} {r : SorterRun}
    (hN : 2 ≤ sz → sz * (S.length - d + 1) ≤ N) (hl : lo + sz ≤ S.length) (hd : d ≤ S.length)
    (hlen : r.ord.length = S.length) (hn : r.ord.Nodup) (ha : AgreeSeg S a d lo sz r.ord)
    (hsp : r.sp = q + pushes sz) (htop : 2 ≤ sz → stackRead gen r.stack q = entryOf lo (lo + sz - 1) d) :
    ∃ r', Processed S gen lo sz q (sz * (S.length - d + 1)) r r' := by
  by_cases h : 2 ≤ sz
  · exact ih lo sz d q a r (hN h) h hl hd hlen hn ha (by rw [hsp, pushes, if_pos h]) (htop h)
  · refine ⟨r, ⟨0, Nat.zero_le _, fun _ => rfl⟩, ?_, .refl, SortedSeg.small (by omega), fun _ _ => rfl, fun _ h _ => h⟩
    rw [hsp, pushes, if_neg h, Nat.add_zero]

theorem sortLoop_pop {S : List Byte} {gen q lo hi d : Nat} {r : SorterRun} (hsp : r.sp = q + 1)
    (htop : stackRead gen r.stack q = entryOf lo hi d) (hlo : lo < 2 ^ 32) (hhi : hi < 2 ^ 32) (hd : d < 2 ^ 32)
    (f : Nat) : sortLoop S gen (f + 1) r = sortLoop S gen f (sortRange S lo hi d { r with sp := q }) := by
  have h1 : (BitVec.ofNat 32 lo).toNat = lo := by simpa using Nat.mod_eq_of_lt hlo
  have h2 : (BitVec.ofNat 32 hi).toNat = hi := by simpa using Nat.mod_eq_of_lt hhi
  have h3 : (BitVec.ofNat 32 d).toNat = d := by simpa using Nat.mod_eq_of_lt hd
  rw [sortLoop, if_neg (by omega)]
  simp only [hsp, Nat.add_sub_cancel, htop, entryOf, h1, h2, h3]

theorem weight_split (l e g w : Nat) (he : 1 ≤ e) : 1 + l * (w + 1) + e * w + g * (w + 1) ≤ (l + e + g) * (w + 1) := by
  nlinarith

/-- The three buckets of a partition, each sorted, are together sorted (R125, R127). -/
theorem sortedSeg_of_buckets {S : List Byte} {a d lo hi lt gt : Nat} {v : Int} {o : List Nat} (hd : d < S.length)
    (h1 : lo ≤ lt) (h2 : lt ≤ gt) (h3 : gt ≤ hi) (ha : AgreeSeg S a d lo (hi - lo + 1) o)
    (hb : ∀ x, lo ≤ x → x < lo + (lt - lo) → charAt S (o.getD x 0) d < v)
    (he : ∀ x, lt ≤ x → x < lt + (gt - lt + 1) → charAt S (o.getD x 0) d = v)
    (hab : ∀ x, gt + 1 ≤ x → x < gt + 1 + (hi - gt) → v < charAt S (o.getD x 0) d)
    (sl : SortedSeg S lo (lt - lo) o) (se : SortedSeg S lt (gt - lt + 1) o) (sg : SortedSeg S (gt + 1) (hi - gt) o) :
    SortedSeg S lo (hi - lo + 1) o := by
  intro x y hx hxy hy
  have key : charAt S (o.getD x 0) d < charAt S (o.getD y 0) d → rotKey S (o.getD x 0) < rotKey S (o.getD y 0) := by
    intro h
    rw [← rotKeyLt_iff]
    refine rotKeyLt_of_charAt hd (fun u hu => ?_) h
    rw [ha x hx (by omega) u hu, ha y (by omega) hy u hu]
  by_cases c1 : x < lt
  · by_cases c2 : y < lt
    · exact sl x y hx hxy (by omega)
    · by_cases c3 : y ≤ gt
      · exact key (by rw [he y (by omega) (by omega)]; exact hb x hx (by omega))
      · exact key ((hb x hx (by omega)).trans (hab y (by omega) (by omega)))
  · by_cases c3 : x ≤ gt
    · by_cases c4 : y ≤ gt
      · exact se x y (by omega) hxy (by omega)
      · exact key (by rw [he x (by omega) (by omega)]; exact hab y (by omega) (by omega))
    · exact sg x y (by omega) hxy (by omega)

theorem process_step {S : List Byte} {gen N : Nat} (h32 : S.length < 2 ^ 32) (ih : ProcessesUpTo S gen N) :
    ProcessesUpTo S gen (N + 1) := by
  intro lo sz d q a r hN hsz hl hd hlen hn ha hsp htop
  have hhi : lo + sz - 1 - lo + 1 = sz := by omega
  have hpop := fun f => sortLoop_pop (S := S) hsp htop (by omega) (by omega) (by omega) f
  unfold sortRange at hpop
  by_cases hsmall : lo + sz - 1 - lo + 1 < Config.cutoff ∨ d = S.length
  · simp only [if_pos hsmall] at hpop
    obtain ⟨s1, s2⟩ := insertion_sorts (S := S) (a := a) (lo := lo) (hi := lo + sz - 1) (o := r.ord) hd (by omega)
      (by omega) hn (by rw [hhi]; exact ha)
    rw [hhi] at s1 s2
    exact ⟨_, ⟨1, Nat.mul_pos (by omega) (by omega), hpop⟩, rfl, s2, s1, fun _ _ => rfl, fun _ h _ => h⟩
  · simp only [if_neg hsmall] at hpop
    have hdn : d < S.length := by omega
    obtain ⟨hsplit, hsw⟩ := partitionRange_splits (S := S) (d := d) (lo := lo) (hi := lo + sz - 1) (o := r.ord)
      (by omega) (by omega)
    set p := partitionRange S lo (lo + sz - 1) d r.ord
    rw [hhi] at hsw
    obtain ⟨b1, b2, -, b4, hb, he, hab⟩ := hsplit
    set v := charAt S (r.ord.getD lo 0) d
    -- the three buckets
    have hlenp : p.2.2.length = S.length := by rw [hsw.length, hlen]
    have hnp : p.2.2.Nodup := (hsw.perm (by omega)).nodup_iff.mpr hn
    have hap : AgreeSeg S a d lo sz p.2.2 := ha.of_swaps hsw (by omega)
    set rG := pushBucket (lo + sz - 1 - p.2.1) (p.2.1 + 1) (lo + sz - 1) d { r with sp := q, ord := p.2.2 } with hrG
    obtain ⟨g1, g2, g3, g4, g5⟩ := pushBucket_spec gen (lo + sz - 1 - p.2.1) (p.2.1 + 1) (lo + sz - 1) d
      { r with sp := q, ord := p.2.2 }
    rw [← hrG] at g1 g2 g3 g4 g5
    set rE := pushBucket (p.2.1 - p.1 + 1) p.1 p.2.1 (d + 1) rG with hrE
    obtain ⟨e1, e2, e3, e4, e5⟩ := pushBucket_spec gen (p.2.1 - p.1 + 1) p.1 p.2.1 (d + 1) rG
    rw [← hrE] at e1 e2 e3 e4 e5
    set rL := pushBucket (p.1 - lo) lo (p.1 - 1) d rE with hrL
    obtain ⟨l1, l2, l3, l4, l5⟩ := pushBucket_spec gen (p.1 - lo) lo (p.1 - 1) d rE
    rw [← hrL] at l1 l2 l3 l4 l5
    simp only at g1 g2 g3 g4 g5
    have hoL : rL.ord = p.2.2 := by rw [l2, e2, g2]
    have hcut : (15 : Nat) ≤ sz := by
      have : ¬ sz < Config.cutoff := fun h => hsmall (.inl (by omega))
      simpa [Config.cutoff] using this
    have hw : S.length - d + 1 = (S.length - (d + 1) + 1) + 1 := by omega
    -- less
    obtain ⟨r2, p2⟩ := process_bucket ih (lo := lo) (sz := p.1 - lo) (d := d) (q := rE.sp) (a := a) (r := rL)
      (by
        intro _
        have : (p.1 - lo) * (S.length - d + 1) < sz * (S.length - d + 1) :=
          Nat.mul_lt_mul_of_pos_right (by omega) (by omega)
        omega)
      (by omega) hd (by rw [hoL, hlenp]) (by rw [hoL]; exact hnp)
      (by rw [hoL]; exact fun x h1 h2 => hap x h1 (by omega)) l1
      (by
        intro h
        have hx : lo + (p.1 - lo) - 1 = p.1 - 1 := by omega
        rw [l4 h, hx])
    have hlen2 : r2.ord.length = S.length := by rw [p2.swaps.length, hoL, hlenp]
    have hn2 : r2.ord.Nodup := (p2.swaps.perm (by rw [hoL]; omega)).nodup_iff.mpr (by rw [hoL]; exact hnp)
    have out2 : ∀ x, p.1 ≤ x → r2.ord.getD x 0 = p.2.2.getD x 0 := fun x hx => by
      rw [p2.swaps.outside (by rw [hoL]; omega) (by omega), hoL]
    -- equal
    obtain ⟨r3, p3⟩ := process_bucket ih (lo := p.1) (sz := p.2.1 - p.1 + 1) (d := d + 1) (q := rG.sp)
      (a := p.2.2.getD p.1 0) (r := r2)
      (by
        intro _
        have h1 : (p.2.1 - p.1 + 1) * (S.length - (d + 1) + 1) ≤ sz * (S.length - (d + 1) + 1) :=
          Nat.mul_le_mul_right _ (by omega)
        have h2 : sz * (S.length - d + 1) = sz * (S.length - (d + 1) + 1) + sz := by rw [hw, Nat.mul_succ]
        omega)
      (by omega) hdn hlen2 hn2
      (by
        intro x h1 h2 u hu
        rw [out2 x h1]
        rcases Nat.lt_succ_iff_lt_or_eq.mp hu with hu | hu
        · rw [hap x (by omega) (by omega) u hu, hap p.1 (by omega) (by omega) u hu]
        · rw [hu]
          exact circByte_eq_of_charAt hdn (by rw [he x h1 (by omega), he p.1 (Nat.le_refl _) (by omega)]))
      (by rw [p2.sp, e1])
      (by
        intro h
        have hx : p.1 + (p.2.1 - p.1 + 1) - 1 = p.2.1 := by omega
        have : rG.sp < rE.sp := by
          rw [e1, pushes, if_pos h]
          omega
        rw [p2.below _ this, l3 _ this, e4 h, hx])
    have hlen3 : r3.ord.length = S.length := by rw [p3.swaps.length, hlen2]
    have hn3 : r3.ord.Nodup := (p3.swaps.perm (by omega)).nodup_iff.mpr hn2
    have out3 : ∀ x, p.2.1 < x → r3.ord.getD x 0 = p.2.2.getD x 0 := fun x hx => by
      rw [p3.swaps.outside (by omega) (by omega), out2 x (by omega)]
    -- greater
    obtain ⟨r4, p4⟩ := process_bucket ih (lo := p.2.1 + 1) (sz := lo + sz - 1 - p.2.1) (d := d) (q := q) (a := a)
      (r := r3)
      (by
        intro _
        have : (lo + sz - 1 - p.2.1) * (S.length - d + 1) < sz * (S.length - d + 1) :=
          Nat.mul_lt_mul_of_pos_right (by omega) (by omega)
        omega)
      (by omega) hd hlen3 hn3
      (by
        intro x h1 h2 u hu
        rw [out3 x (by omega)]
        exact hap x (by omega) (by omega) u hu)
      (by rw [p3.sp, g1])
      (by
        intro h
        have hx : p.2.1 + 1 + (lo + sz - 1 - p.2.1) - 1 = lo + sz - 1 := by omega
        have h1 : q < rG.sp := by
          rw [g1, pushes, if_pos h]
          omega
        have h2 : q < rE.sp := by omega
        rw [p3.below _ h1, p2.below _ h2, l3 _ h2, e3 _ h1, g4 h, hx])
    -- together
    have w2 : Swaps lo sz p.2.2 r2.ord := by
      have := p2.swaps.widen (lo' := lo) (sz' := sz) (Nat.le_refl _) (by omega)
      rwa [hoL] at this
    have w3 : Swaps lo sz r2.ord r3.ord := p3.swaps.widen (by omega) (by omega)
    have w4 : Swaps lo sz r3.ord r4.ord := p4.swaps.widen (by omega) (by omega)
    have hall : Swaps lo sz p.2.2 r4.ord := (w2.trans w3).trans w4
    refine ⟨r4, ?_, p4.sp, hsw.trans hall, ?_, ?_, ?_⟩
    · obtain ⟨k2, hk2, f2⟩ := p2.fuel
      obtain ⟨k3, hk3, f3⟩ := p3.fuel
      obtain ⟨k4, hk4, f4⟩ := p4.fuel
      refine ⟨k4 + k3 + k2 + 1, ?_, ?_⟩
      · have := weight_split (p.1 - lo) (p.2.1 - p.1 + 1) (lo + sz - 1 - p.2.1) (S.length - (d + 1) + 1) (by omega)
        have hs : p.1 - lo + (p.2.1 - p.1 + 1) + (lo + sz - 1 - p.2.1) = sz := by omega
        rw [hs, ← hw] at this
        omega
      · intro f
        rw [show f + (k4 + k3 + k2 + 1) = (f + k4 + k3 + k2) + 1 by omega, hpop, f2, f3, f4]
    · have hb4 := p2.swaps.keeps (P := fun e => charAt S e d < v) (by rw [hoL]; omega)
        (by rw [hoL]; exact fun x h1 h2 => hb x h1 (by omega))
      have he4 := p3.swaps.keeps (P := fun e => charAt S e d = v) (by omega)
        (fun x h1 h2 => by rw [out2 x h1]; exact he x h1 (by omega))
      have hg4 := p4.swaps.keeps (P := fun e => v < charAt S e d) (by omega)
        (fun x h1 h2 => by rw [out3 x (by omega)]; exact hab x (by omega) (by omega))
      have hfin := sortedSeg_of_buckets (S := S) (a := a) (d := d) (lo := lo) (hi := lo + sz - 1) (lt := p.1)
        (gt := p.2.1) (v := v) (o := r4.ord) hdn b1 (by omega) b4 (by rw [hhi]; exact hap.of_swaps hall (by omega))
        (fun x h1 h2 => by
          rw [p4.swaps.outside (by omega) (by omega), p3.swaps.outside (by omega) (by omega)]
          exact hb4 x h1 h2)
        (fun x h1 h2 => by
          rw [p4.swaps.outside (by omega) (by omega)]
          exact he4 x h1 h2)
        hg4
        ((p2.sorted.of_outside p3.swaps (by omega) (by omega)).of_outside p4.swaps (by omega) (by omega))
        (p3.sorted.of_outside p4.swaps (by omega) (by omega))
        p4.sorted
      rwa [hhi] at hfin
    · intro x hx
      have h1 : x < rG.sp := by omega
      have h2 : x < rE.sp := by omega
      rw [p4.below x hx, p3.below x h1, p2.below x h2, l3 x h2, e3 x h1, g3 x hx]
    · intro B h1 h2
      have c1 := pushes_le (p.1 - lo)
      have c2 := pushes_le (p.2.1 - p.1 + 1)
      have c3 := pushes_le (lo + sz - 1 - p.2.1)
      exact p4.keys B (p3.keys B (p2.keys B (l5 B (e5 B (g5 B h1 (by omega)) (by omega)) (by omega)) (by omega))
        (by omega)) (by omega)

theorem processes {S : List Byte} (gen : Nat) (h32 : S.length < 2 ^ 32) : ∀ N, ProcessesUpTo S gen N := by
  intro N
  induction N with
  | zero =>
    intro lo sz d q a r hN hsz
    have : 0 < sz * (S.length - d + 1) := Nat.mul_pos (by omega) (by omega)
    omega
  | succ N ih => exact process_step h32 ih

/-! ### SORT_MICRO -/

theorem sortLoop_empty (S : List Byte) (gen f : Nat) {r : SorterRun} (h : r.sp = 0) : sortLoop S gen f r = r := by
  cases f with
  | zero => rfl
  | succ f => rw [sortLoop, if_pos h]

theorem sortMicro_eq (S : List Byte) (gen : Nat) (stack : Memory StackEntry) :
    sortMicro S gen stack = sortLoop S gen (S.length * (S.length + 1)) (sortStart S stack) := rfl

/-- All that SORT_MICRO does: from its start the main loop comes, in at most n(n+1) rounds, to `sortMicro S gen stack`,
which has SP = 0, the order of R121 and a stack written below floor(n/2) only. -/
theorem sortMicro_spec (S : List Byte) (gen : Nat) (stack : Memory StackEntry) (h32 : S.length < 2 ^ 32) :
    (∀ f, S.length * (S.length + 1) ≤ f → sortLoop S gen f (sortStart S stack) = sortMicro S gen stack) ∧
    (sortMicro S gen stack).sp = 0 ∧
    (sortMicro S gen stack).ord.Perm (List.range S.length) ∧
    SortedSeg S 0 S.length (sortMicro S gen stack).ord ∧
    (∀ B, stack.wf B = true → S.length / 2 ≤ B → (sortMicro S gen stack).stack.wf B = true) := by
  by_cases h2 : 2 ≤ S.length
  · have hst : sortStart S stack = push 0 (S.length - 1) 0 { ord := List.range S.length, stack := stack, sp := 0 } :=
      if_pos h2
    obtain ⟨r', p⟩ := processes gen h32 (S.length * (S.length - 0 + 1)) 0 S.length 0 0 0 (sortStart S stack)
      (Nat.le_refl _) h2 (by omega) (by omega) (by rw [hst]; simp [push]) (by rw [hst]; exact List.nodup_range)
      (fun x _ _ u hu => absurd hu (Nat.not_lt_zero u)) (by rw [hst]; rfl)
      (by rw [hst]; simp [push, stackRead_set, entryOf])
    obtain ⟨k, hk, hf⟩ := p.fuel
    have hfin : ∀ f, S.length * (S.length + 1) ≤ f → sortLoop S gen f (sortStart S stack) = r' := by
      intro f hle
      have hk' : k ≤ S.length * (S.length + 1) := hk
      have := hf (f - k)
      rw [Nat.sub_add_cancel (by omega), sortLoop_empty S gen _ p.sp] at this
      exact this
    have hr' : sortMicro S gen stack = r' := hfin _ (Nat.le_refl _)
    have hord : (sortStart S stack).ord = List.range S.length := by rw [hst]; rfl
    rw [hr']
    refine ⟨hfin, p.sp, ?_, p.sorted, ?_⟩
    · have := p.swaps.perm (by rw [hord]; simp)
      rwa [hord] at this
    · intro B h1 h3
      refine p.keys B ?_ (by omega)
      rw [hst]
      exact Memory.wf_set _ (by show 0 < B; omega) h1
  · have hst : sortStart S stack = { ord := List.range S.length, stack := stack, sp := 0 } := if_neg h2
    have hfin : ∀ f, sortLoop S gen f (sortStart S stack) = sortStart S stack := fun f =>
      sortLoop_empty S gen f (by rw [hst])
    have hr : sortMicro S gen stack = sortStart S stack := hfin _
    rw [hr, hst]
    refine ⟨fun f _ => by rw [← hst]; exact hfin f, rfl, .refl _, SortedSeg.small (by omega), fun B h _ => h⟩

end Sys2Proof.Machine
end

