-- ==== Sys2Proof/Laws/Order.lean ====
section
/-! SUPPORT. The order of R121: there is exactly one, SORT_MICRO finds it, and every order that meets the source's weaker
contract of R136 lists the same rotations. -/

namespace Sys2Proof.Machine

theorem IsOrder.length {S : List Byte} {o : List Nat} (h : IsOrder S o) : o.length = S.length := by
  simpa using h.1.length_eq

theorem IsWeakOrder.length {S : List Byte} {o : List Nat} (h : IsWeakOrder S o) : o.length = S.length := by
  simpa using h.1.length_eq

theorem IsWeakOrder.lt {S : List Byte} {o : List Nat} (h : IsWeakOrder S o) {i : Nat} (hi : i < S.length) :
    o.getD i 0 < S.length := by
  have hl : i < o.length := by rw [h.length]; exact hi
  rw [List.getD_eq_getElem _ _ hl]
  exact List.mem_range.mp (h.1.mem_iff.mp (List.getElem_mem hl))

theorem IsOrder.weak {S : List Byte} {o : List Nat} (h : IsOrder S o) : IsWeakOrder S o := by
  refine ⟨h.1, fun i j hij hj hlt => ?_⟩
  have h1 := (rotKeyLt_iff S _ _).mp (h.2 i j hij hj)
  have h2 := (rotKeyLt_iff S _ _).mp (.inl hlt : rotKeyLt S (o.getD j 0) (o.getD i 0))
  exact lt_asymm h1 h2

/-- SORT_MICRO finds the order of R121. -/
theorem sortMicro_isOrder (S : List Byte) (gen : Nat) (stack : Memory StackEntry) (h32 : S.length < 2 ^ 32) :
    IsOrder S (sortMicro S gen stack).ord := by
  obtain ⟨-, -, hp, hs, -⟩ := sortMicro_spec S gen stack h32
  exact ⟨hp, fun i j hij hj => (rotKeyLt_iff S _ _).mpr (hs i j (Nat.zero_le _) hij (by omega))⟩

theorem IsOrder.pairwise {S : List Byte} {o : List Nat} (h : IsOrder S o) :
    o.Pairwise fun a b => rotKey S a < rotKey S b := by
  rw [List.pairwise_iff_getElem]
  intro i j hi hj hij
  have := h.2 i j hij (by rw [← h.length]; exact hj)
  rw [rotKeyLt_iff, List.getD_eq_getElem _ _ hi, List.getD_eq_getElem _ _ hj] at this
  exact this

/-- There is only one order (R121). -/
theorem IsOrder.unique {S : List Byte} {o p : List Nat} (ho : IsOrder S o) (hp : IsOrder S p) : o = p :=
  List.Perm.eq_of_pairwise (fun _ _ _ _ h1 h2 => absurd h2 (lt_asymm h1)) ho.pairwise hp.pairwise
    (ho.1.trans hp.1.symm)

theorem IsWeakOrder.pairwise {S : List Byte} {o : List Nat} (h : IsWeakOrder S o) :
    o.Pairwise fun a b => nats (rot S a) ≤ nats (rot S b) := by
  rw [List.pairwise_iff_getElem]
  intro i j hi hj hij
  have := h.2 i j hij (by rw [← h.length]; exact hj)
  rw [lexLt_iff_nats (by simp), List.getD_eq_getElem _ _ hi, List.getD_eq_getElem _ _ hj] at this
  exact not_lt.mp this

/-- Every admissible order lists the same rotations (R136). -/
theorem IsWeakOrder.rotations {S : List Byte} {o p : List Nat} (ho : IsWeakOrder S o) (hp : IsWeakOrder S p) :
    o.map (rot S) = p.map (rot S) := by
  refine List.Perm.eq_of_pairwise (le := fun X Y => nats X ≤ nats Y) (fun X Y _ _ h1 h2 => ?_) ?_ ?_ ?_
  · exact nats_injective (le_antisymm h1 h2)
  · exact List.pairwise_map.mpr ho.pairwise
  · exact List.pairwise_map.mpr hp.pairwise
  · exact (ho.1.trans hp.1.symm).map _

/-! ### The state after SORT_MICRO -/

theorem len_lt (s : State) : s.len.toNat < 2 ^ 32 := s.len.isLt

theorem sortMicro_ord_lt {S : List Byte} (gen : Nat) (stack : Memory StackEntry) (h32 : S.length < 2 ^ 32) :
    ∀ i ∈ (sortMicro S gen stack).ord, i < 2 ^ 32 := by
  intro i hi
  have := (sortMicro_isOrder S gen stack h32).1.mem_iff.mp hi
  exact (List.mem_range.mp this).trans h32

theorem sortMicro_ord_length {S : List Byte} (gen : Nat) (stack : Memory StackEntry) (h32 : S.length < 2 ^ 32) :
    (sortMicro S gen stack).ord.length = S.length :=
  (sortMicro_isOrder S gen stack h32).length

/-- The order does not depend on what STACK held, nor on the reset number. -/
theorem sortMicro_ord_congr (S : List Byte) (g h : Nat) (a b : Memory StackEntry) (h32 : S.length < 2 ^ 32) :
    (sortMicro S g a).ord = (sortMicro S h b).ord :=
  (sortMicro_isOrder S g a h32).unique (sortMicro_isOrder S h b h32)

end Sys2Proof.Machine
end

