-- ==== Sys2Proof/Laws/Transformer.lean ====
section
/-! SUPPORT. What BWTF's loop computes, and why BWTI undoes it: for every order that meets the source's contract, the
LF mapping leads from a row to a row that holds the next rotation (41_bwt_transformer.md R151, R168, R169, R173). -/

namespace Sys2Proof.Machine

/-! ### Forward (R151, R152) -/

/-- The payload byte of a row that holds offset `k` (R151). -/
def payloadByte (S : List Byte) (k : Nat) : Byte := S.getD ((k + S.length - 1) % S.length) 0

theorem payloadLoop_bytes (S : List Byte) (i fi : Nat) (ks : List Nat) :
    (payloadLoop S i fi ks).2 = ks.map (payloadByte S) := by
  induction ks generalizing i fi with
  | nil => rfl
  | cons k ks ih => simp only [payloadLoop, ih, List.map_cons, payloadByte]

theorem payloadLoop_row_of_not_mem (S : List Byte) (i fi : Nat) (ks : List Nat) (h : 0 ∉ ks) :
    (payloadLoop S i fi ks).1 = fi := by
  induction ks generalizing i fi with
  | nil => rfl
  | cons k ks ih =>
    simp only [List.mem_cons, not_or] at h
    simp only [payloadLoop]
    rw [ih _ _ h.2, if_neg (Ne.symm h.1)]

/-- The row that holds offset 0. -/
theorem payloadLoop_row (S : List Byte) (i fi : Nat) (ks : List Nat) (h : 0 ∈ ks) (hn : ks.Nodup) :
    (payloadLoop S i fi ks).1 = i + ks.idxOf 0 := by
  induction ks generalizing i fi with
  | nil => simp at h
  | cons k ks ih =>
    simp only [payloadLoop]
    rw [List.nodup_cons] at hn
    by_cases hk : k = 0
    · subst hk
      rw [payloadLoop_row_of_not_mem _ _ _ _ hn.1, if_pos rfl, List.idxOf_cons_self, Nat.add_zero]
    · have h' : 0 ∈ ks := (List.mem_cons.mp h).resolve_left (Ne.symm hk)
      rw [ih _ _ h' hn.2, List.idxOf_cons_ne _ hk]
      omega

/-- FIDX for an order: the row of offset 0 (R151). -/
theorem IsWeakOrder.firstRow {S : List Byte} {o : List Nat} (h : IsWeakOrder S o) (hn : 1 ≤ S.length) :
    o.idxOf 0 < S.length ∧ o.getD (o.idxOf 0) 0 = 0 ∧ (payloadLoop S 0 0 o).1 = o.idxOf 0 := by
  have hm : 0 ∈ o := h.1.mem_iff.mpr (List.mem_range.mpr hn)
  have hlt : o.idxOf 0 < o.length := List.idxOf_lt_length_of_mem hm
  refine ⟨by rw [← h.length]; exact hlt, ?_, ?_⟩
  · rw [List.getD_eq_getElem _ _ hlt]
    exact List.getElem_idxOf hlt
  · have := payloadLoop_row S 0 0 o hm (h.1.nodup_iff.mpr List.nodup_range)
    omega

/-! ### Circular addressing -/

theorem circByte_add (S : List Byte) (k t u : Nat) : circByte S (k + t) u = circByte S k (t + u) := by
  simp only [circByte, circ, Nat.add_assoc]

theorem circByte_wrap (S : List Byte) (k t : Nat) : circByte S k (t + S.length) = circByte S k t := by
  simp only [circByte, circ, ← Nat.add_assoc, Nat.add_mod_right]

/-- Identical rotations stay identical one position later. -/
theorem rot_succ_congr {S : List Byte} {a b : Nat} (h : rot S a = rot S b) : rot S (a + 1) = rot S (b + 1) := by
  rw [rot_eq_iff] at h ⊢
  intro t ht
  rw [circByte_add, circByte_add]
  by_cases h1 : 1 + t < S.length
  · exact h _ h1
  · have h2 : 1 + t = 0 + S.length := by omega
    rw [h2, circByte_wrap, circByte_wrap]
    exact h 0 (by omega)

theorem rot_zero (S : List Byte) : rot S 0 = S := by
  apply List.ext_getElem
  · simp
  · intro i h1 h2
    simp [rot, circByte, circ, Nat.mod_eq_of_lt h2, h2]

/-- The rotation at `k` and, after it, its first byte again: n + 1 positions. -/
def ext (S : List Byte) (k : Nat) : List Nat := (circByte S k 0).toNat :: nats (rot S (k + 1))

theorem ext_eq (S : List Byte) (k : Nat) : ext S k = nats (rot S k) ++ [(circByte S k 0).toNat] := by
  have h : ∀ m, (List.range m).map (fun t => (circByte S (k + 1) t).toNat) =
      (List.range' 1 m).map (fun t => (circByte S k t).toNat) := by
    intro m
    apply List.ext_getElem
    · simp
    · intro i h1 h2
      simp [circByte_add]
  have h0 : (circByte S k 0).toNat = (circByte S k S.length).toNat := by
    have := circByte_wrap S k 0
    rw [Nat.zero_add] at this
    rw [this]
  simp only [ext, nats, rot, List.map_map, Function.comp_def, h]
  rw [h0]
  conv_lhs => rw [← h0]
  have : (List.range (S.length + 1)).map (fun t => (circByte S k t).toNat) =
      (circByte S k 0).toNat :: (List.range' 1 S.length).map (fun t => (circByte S k t).toNat) := by
    rw [List.range_eq_range', List.range'_succ]
    rfl
  rw [← this, List.range_succ, List.map_append]
  rfl

theorem append_lt_append_of_lt {X Y : List Nat} (a b : Nat) (h : X < Y) (hl : X.length = Y.length) :
    X ++ [a] < Y ++ [b] := by
  rw [List.lt_iff_exists] at h ⊢
  rcases h with ⟨-, h⟩ | ⟨i, h1, h2, h3, h4⟩
  · omega
  · refine .inr ⟨i, by simp; omega, by simp; omega, fun j hj => ?_, ?_⟩
    · rw [List.getElem_append_left (by omega), List.getElem_append_left (by omega)]
      exact h3 j hj
    · rw [List.getElem_append_left (by omega), List.getElem_append_left (by omega)]
      exact h4

theorem ext_le_of_rot_le {S : List Byte} {a b : Nat} (hn : 1 ≤ S.length) (h : nats (rot S a) ≤ nats (rot S b)) :
    ext S a ≤ ext S b := by
  rcases lt_or_eq_of_le h with h | h
  · rw [ext_eq, ext_eq]
    exact (append_lt_append_of_lt _ _ h (by simp [nats])).le
  · have hr := nats_injective h
    have h0 : circByte S a 0 = circByte S b 0 := (rot_eq_iff S a b).mp hr 0 hn
    rw [ext, ext, rot_succ_congr hr, h0]

theorem cons_le_cons_of {x y : Nat} {X Y : List Nat} (h : x < y ∨ x = y ∧ X ≤ Y) : x :: X ≤ y :: Y := by
  rcases h with h | ⟨rfl, h⟩
  · exact le_of_lt (show x :: X < y :: Y from List.Lex.rel h)
  · rcases lt_or_eq_of_le h with h | h
    · exact le_of_lt (show x :: X < x :: Y from List.Lex.cons h)
    · exact le_of_eq (by rw [h])

/-! ### One step back in the offsets is a permutation -/

theorem range_pred_perm (n : Nat) : ((List.range n).map fun k => (k + n - 1) % n).Perm (List.range n) := by
  cases n with
  | zero => exact .refl _
  | succ m =>
    rw [List.range_succ_eq_map, List.map_cons, List.map_map]
    have h0 : (0 + (m + 1) - 1) % (m + 1) = m := by
      rw [Nat.zero_add, Nat.add_sub_cancel]
      exact Nat.mod_eq_of_lt (Nat.lt_succ_self m)
    have h1 : (List.range m).map ((fun k => (k + (m + 1) - 1) % (m + 1)) ∘ Nat.succ) = List.range m := by
      conv_rhs => rw [← List.map_id (List.range m)]
      apply List.map_congr_left
      intro k hk
      have := List.mem_range.mp hk
      simp only [Function.comp_apply, id_eq]
      rw [show k.succ + (m + 1) - 1 = k + (m + 1) by omega, Nat.add_mod_right, Nat.mod_eq_of_lt (by omega)]
    rw [h0, h1, ← List.range_succ_eq_map, List.range_succ]
    exact List.perm_append_comm (l₁ := [m])

/-- The offset one step back. -/
def prev (S : List Byte) (k : Nat) : Nat := (k + S.length - 1) % S.length

theorem payloadByte_eq (S : List Byte) (k : Nat) : payloadByte S k = circByte S (prev S k) 0 := by
  simp only [payloadByte, circByte, circ, prev, Nat.add_zero, Nat.mod_mod]

theorem rot_prev_succ (S : List Byte) {k : Nat} (hk : k < S.length) : rot S (prev S k + 1) = rot S k := by
  rw [rot_eq_iff]
  intro t _
  simp only [circByte, circ, prev]
  congr 1
  rw [Nat.add_assoc, Nat.mod_add_mod, show k + S.length - 1 + (1 + t) = k + t + S.length by omega, Nat.add_mod_right]

/-- A row's payload byte and its rotation are the bytes of the rotation one step back. -/
theorem ext_prev (S : List Byte) {k : Nat} (hk : k < S.length) :
    ext S (prev S k) = (payloadByte S k).toNat :: nats (rot S k) := by
  rw [ext, rot_prev_succ S hk, payloadByte_eq S k]

/-! ### The LF mapping leads to the next rotation (R168) -/

theorem payload_getD {S : List Byte} {o : List Nat} {j : Nat} (hj : j < o.length) :
    (o.map (payloadByte S)).getD j 0 = payloadByte S (o.getD j 0) := by
  rw [List.getD_eq_getElem _ _ (by simpa using hj), List.getD_eq_getElem _ _ hj]
  simp

/-- For an order that meets the source's contract: row next[i] holds the rotation one position after the one row i holds,
and its payload byte is that rotation's first byte. -/
theorem lfMap_next {S : List Byte} {o next : List Nat} (ho : IsWeakOrder S o)
    (hn : IsLfMap (o.map (payloadByte S)) next) {i : Nat} (hi : i < S.length) :
    payloadByte S (o.getD (next.getD i 0) 0) = circByte S (o.getD i 0) 0 ∧
      rot S (o.getD (next.getD i 0) 0) = rot S (o.getD i 0 + 1) := by
  have hlen : (o.map (payloadByte S)).length = S.length := by simp [ho.length]
  have hpay : ∀ j, j < S.length → (o.map (payloadByte S)).getD j 0 = payloadByte S (o.getD j 0) := fun j hj =>
    payload_getD (by rw [ho.length]; exact hj)
  have hrow : ∀ j, j < S.length → next.getD j 0 < S.length := fun j hj => hlen ▸ hn.lt (by rw [hlen]; exact hj)
  have hone : 1 ≤ S.length := by omega
  -- two sorted lists with the same members
  have hsA : (o.map (ext S)).Pairwise (· ≤ ·) :=
    List.pairwise_map.mpr (ho.pairwise.imp fun h => ext_le_of_rot_le hone h)
  have hsB : (next.map fun j => ext S (prev S (o.getD j 0))).Pairwise (· ≤ ·) := by
    rw [List.pairwise_iff_getElem]
    intro x y hx hy hxy
    simp only [List.length_map] at hx hy
    have hy' : y < S.length := by rw [← hlen, ← hn.1]; exact hy
    have hx' : x < S.length := hxy.trans hy'
    simp only [List.getElem_map, ← List.getD_eq_getElem _ 0 hx, ← List.getD_eq_getElem _ 0 hy]
    rw [ext_prev S (ho.lt (hrow x hx')), ext_prev S (ho.lt (hrow y hy'))]
    apply cons_le_cons_of
    have := hn.sorted hxy (by rw [hlen]; exact hy')
    rw [hpay _ (hrow x hx'), hpay _ (hrow y hy')] at this
    rcases this with h | ⟨h, h'⟩
    · exact .inl h
    · refine .inr ⟨h, ?_⟩
      have := ho.2 _ _ h' (hrow y hy')
      rw [lexLt_iff_nats (by simp)] at this
      exact not_lt.mp this
  have hmapRange : (List.range S.length).map (fun j => o.getD j 0) = o := by
    apply List.ext_getElem
    · simp [ho.length]
    · intro j h1 h2
      simp [h2]
  have hperm : (o.map (ext S)).Perm (next.map fun j => ext S (prev S (o.getD j 0))) := by
    have h1 : (next.map fun j => ext S (prev S (o.getD j 0))).Perm
        ((List.range S.length).map fun j => ext S (prev S (o.getD j 0))) := by
      have := hn.perm
      rw [hlen] at this
      exact this.map _
    have h2 : ((List.range S.length).map fun j => ext S (prev S (o.getD j 0))) =
        o.map (fun k => ext S (prev S k)) := by
      conv_rhs => rw [← hmapRange]
      rw [List.map_map]
      rfl
    have h3 : (o.map fun k => ext S (prev S k)).Perm ((List.range S.length).map fun k => ext S (prev S k)) :=
      ho.1.map _
    have h4 : ((List.range S.length).map fun k => ext S (prev S k)).Perm ((List.range S.length).map (ext S)) := by
      have := (range_pred_perm S.length).map (ext S)
      rw [List.map_map] at this
      exact this
    exact (ho.1.map (ext S)).trans ((h1.trans (h2 ▸ h3)).trans h4).symm
  have heq := List.Perm.eq_of_pairwise (fun _ _ _ _ h1 h2 => le_antisymm h1 h2) hsA hsB hperm
  have hio : i < o.length := by rw [ho.length]; exact hi
  have hin : i < next.length := by rw [hn.1, hlen]; exact hi
  have hi' : ext S (o.getD i 0) = ext S (prev S (o.getD (next.getD i 0) 0)) := by
    have := congrArg (fun l => l[i]?) heq
    simp only [List.getElem?_map, List.getElem?_eq_getElem hio, List.getElem?_eq_getElem hin, Option.map_some,
      Option.some.injEq] at this
    rw [List.getD_eq_getElem _ _ hio, List.getD_eq_getElem _ _ hin]
    exact this
  rw [ext_prev S (ho.lt (hrow i hi)), ext] at hi'
  injection hi' with h1 h2
  exact ⟨BitVec.eq_of_toNat_eq h1.symm, (nats_injective h2).symm⟩

/-- BWTI on the payload of an admissible order, from any row: the rotation that row holds (R173). -/
theorem inverseMicro_of_order {S : List Byte} {o : List Nat} (ho : IsWeakOrder S o) {fi : Nat} (hfi : fi < S.length) :
    (inverseMicro (o.map (payloadByte S)) fi).out = rot S (o.getD fi 0) := by
  have hlen : (o.map (payloadByte S)).length = S.length := by simp [ho.length]
  have hlf := inverseMicro_isLfMap (o.map (payloadByte S)) fi
  have hF := inverseMicro_isFirstColumn (o.map (payloadByte S)) fi
  set next := (inverseMicro (o.map (payloadByte S)) fi).nxt
  set F := (inverseMicro (o.map (payloadByte S)) fi).fcol
  have hpos : ∀ k, posAt next fi k < S.length ∧ rot S (o.getD (posAt next fi k) 0) = rot S (o.getD fi 0 + k) := by
    intro k
    induction k with
    | zero => exact ⟨hfi, rfl⟩
    | succ k ih =>
      refine ⟨hlen ▸ hlf.lt (by rw [hlen]; exact ih.1), ?_⟩
      rw [posAt, (lfMap_next ho hlf ih.1).2, rot_succ_congr ih.2, Nat.add_assoc]
  apply List.ext_getElem
  · simp [ho.length]
  · intro k h1 h2
    have hk : k < S.length := by simpa using h2
    rw [← List.getD_eq_getElem _ 0 h1, ← List.getD_eq_getElem _ 0 h2,
      inverseMicro_out_getD _ _ (by rw [hlen]; exact hk), rot_getD S _ hk]
    obtain ⟨hp, hr⟩ := hpos k
    have hrow : next.getD (posAt next fi k) 0 < S.length := hlen ▸ hlf.lt (by rw [hlen]; exact hp)
    have h3 : F.getD (posAt next fi k) 0 = payloadByte S (o.getD (next.getD (posAt next fi k) 0) 0) := by
      rw [hF.eq_payload hlf (by rw [hlen]; exact hp), payload_getD (by rw [ho.length]; exact hrow)]
    have h0 := (rot_eq_iff S _ _).mp hr 0 (by omega)
    rw [circByte_add, Nat.add_zero] at h0
    rw [← h0, ← (lfMap_next ho hlf hp).1, ← h3]

/-- The payload does not depend on how ties are ordered (R153). -/
theorem payload_of_weakOrders {S : List Byte} {o p : List Nat} (ho : IsWeakOrder S o) (hp : IsWeakOrder S p) :
    o.map (payloadByte S) = p.map (payloadByte S) := by
  have h := ho.rotations hp
  apply List.ext_getElem
  · simp [ho.length, hp.length]
  · intro i h1 h2
    have h1' : i < o.length := by simpa using h1
    have h2' : i < p.length := by simpa using h2
    have hi := congrArg (fun l => l[i]?) h
    simp only [List.getElem?_map, List.getElem?_eq_getElem h1', List.getElem?_eq_getElem h2', Option.map_some,
      Option.some.injEq] at hi
    have hn : i < S.length := by rw [← ho.length]; exact h1'
    have hl := (rot_eq_iff S _ _).mp hi (S.length - 1) (by omega)
    simp only [List.getElem_map, payloadByte]
    simp only [circByte, circ] at hl
    rw [Nat.add_sub_assoc (by omega), Nat.add_sub_assoc (by omega)]
    exact hl

end Sys2Proof.Machine
end

