-- ==== Sys2Proof/Laws/Exec.lean ====
section
/-! SUPPORT. What each command does to each part of the state, said once: the outcome of exec in every case, the fields a
command's own operation leaves alone, and what reading its results gives. -/

namespace Sys2Proof.Machine

/-! ### The outcome of each command -/

@[simp] theorem exec_nop (s : State) : exec .nop s = .next { s with err := 0 } := rfl

theorem exec_sort_fits {s : State} (b : Buf) (h : s.len.toNat ≤ s.cap.toNat) :
    exec (.sort b) s = .next { runSorter b s.len.toNat s with err := 0 } := by
  simp only [exec, execSort, withBlockLength_fits _ h, complete_eq]

theorem exec_bwtf_fits {s : State} (b : Buf) (h : s.len.toNat ≤ s.cap.toNat) (h0 : 1 ≤ s.len.toNat) :
    exec (.bwtf b) s = .next { runForward b s.len.toNat s with err := 0 } := by
  simp only [exec, execBwtf, withBlockLength_fits _ h, complete_eq]
  exact if_neg (by omega)

theorem exec_bwtf_empty {s : State} (b : Buf) (h0 : s.len.toNat = 0) :
    exec (.bwtf b) s = .next { s with err := 1 } := by
  simp only [exec, execBwtf]
  rw [withBlockLength_fits _ (by omega)]
  exact if_pos h0

theorem exec_bwti_fits {s : State} (b : Buf) (h : s.len.toNat ≤ s.cap.toNat) (hf : s.fidx.toNat < s.len.toNat) :
    exec (.bwti b) s = .next { runInverse b s.len.toNat s.fidx.toNat s with err := 0 } := by
  simp only [exec, execBwti, withBlockLength_fits _ h, complete_eq]
  exact if_neg (by omega)

theorem exec_bwti_format {s : State} (b : Buf) (h : s.len.toNat ≤ s.cap.toNat) (hf : s.len.toNat ≤ s.fidx.toNat) :
    exec (.bwti b) s = .next { s with err := 2 } := by
  simp only [exec, execBwti, withBlockLength_fits _ h]
  exact if_pos hf

theorem exec_mtfe_fits {s : State} (b : Buf) (c : Bool) (h : s.len.toNat ≤ s.cap.toNat) :
    exec (.mtfe b c) s =
      .next { finishRecode b (encodeRun (startTables c s) (readBlock s b s.len.toNat)) s with err := 0 } := by
  simp only [exec, execMtfe, withBlockLength_fits _ h, complete_eq]

theorem exec_mtfd_fits {s : State} (b : Buf) (c : Bool) (h : s.len.toNat ≤ s.cap.toNat) :
    exec (.mtfd b c) s =
      .next { finishRecode b (decodeRun (startTables c s) (readBlock s b s.len.toNat)) s with err := 0 } := by
  simp only [exec, execMtfd, withBlockLength_fits _ h, complete_eq]

theorem exec_tooLong {s : State} (i : Instr) (hi : i ≠ .nop) (h : s.cap.toNat < s.len.toNat) :
    exec i s = .next { s with err := 1 } := by
  cases i with
  | nop => exact absurd rfl hi
  | _ =>
    simp only [exec, execSort, execBwtf, execBwti, execMtfe, execMtfd]
    exact withBlockLength_tooLong _ h

/-- What the successful commands do to the state, before STATUS.ERR <- 0. -/
def effectOf (i : Instr) (s : State) : State :=
  match i with
  | .nop => s
  | .sort b => runSorter b s.len.toNat s
  | .bwtf b => runForward b s.len.toNat s
  | .bwti b => runInverse b s.len.toNat s.fidx.toNat s
  | .mtfe b c => finishRecode b (encodeRun (startTables c s) (readBlock s b s.len.toNat)) s
  | .mtfd b c => finishRecode b (decodeRun (startTables c s) (readBlock s b s.len.toNat)) s

/-- All that a command can do: it fails with a code in 1..2 and nothing else changes, or it succeeds (R226, R227). -/
theorem exec_cases (i : Instr) (s : State) :
    (∃ e : BitVec 4, (e = 1 ∨ e = 2) ∧ exec i s = .next { s with err := e }) ∨
      (exec i s = .next { effectOf i s with err := 0 } ∧ (i ≠ .nop → s.len.toNat ≤ s.cap.toNat) ∧
        ∀ b, i = .bwti b → s.fidx.toNat < s.len.toNat) := by
  by_cases hi : i = .nop
  · subst hi
    exact .inr ⟨rfl, fun h => absurd rfl h, fun b h => by cases h⟩
  · rcases Nat.lt_or_ge s.cap.toNat s.len.toNat with h | h
    · exact .inl ⟨1, .inl rfl, exec_tooLong i hi h⟩
    · cases i with
      | nop => exact absurd rfl hi
      | sort b => exact .inr ⟨exec_sort_fits b h, fun _ => h, fun b h => by cases h⟩
      | bwtf b =>
        by_cases h0 : s.len.toNat = 0
        · exact .inl ⟨1, .inl rfl, exec_bwtf_empty b h0⟩
        · exact .inr ⟨exec_bwtf_fits b h (by omega), fun _ => h, fun b h => by cases h⟩
      | bwti b =>
        rcases Nat.lt_or_ge s.fidx.toNat s.len.toNat with hf | hf
        · exact .inr ⟨exec_bwti_fits b h hf, fun _ => h, fun _ _ => hf⟩
        · exact .inl ⟨2, .inr rfl, exec_bwti_format b h hf⟩
      | mtfe b c => exact .inr ⟨exec_mtfe_fits b c h, fun _ => h, fun b h => by cases h⟩
      | mtfd b c => exact .inr ⟨exec_mtfd_fits b c h, fun _ => h, fun b h => by cases h⟩

/-! ### The fields each command's operation leaves alone -/

@[simp] theorem runSorter_err (b : Buf) (n : Nat) (s : State) : (runSorter b n s).err = s.err := rfl

@[simp] theorem runSorter_len (b : Buf) (n : Nat) (s : State) : (runSorter b n s).len = s.len := rfl

@[simp] theorem runSorter_fidx (b : Buf) (n : Nat) (s : State) : (runSorter b n s).fidx = s.fidx := rfl

@[simp] theorem runSorter_cap (b : Buf) (n : Nat) (s : State) : (runSorter b n s).cap = s.cap := rfl

@[simp] theorem runSorter_bufA (b : Buf) (n : Nat) (s : State) : (runSorter b n s).bufA = s.bufA := rfl

@[simp] theorem runSorter_bufB (b : Buf) (n : Nat) (s : State) : (runSorter b n s).bufB = s.bufB := rfl

@[simp] theorem runSorter_tables (b : Buf) (n : Nat) (s : State) : (runSorter b n s).tables = s.tables := rfl

@[simp] theorem runSorter_fcol (b : Buf) (n : Nat) (s : State) : (runSorter b n s).fcol = s.fcol := rfl

@[simp] theorem runSorter_nxt (b : Buf) (n : Nat) (s : State) : (runSorter b n s).nxt = s.nxt := rfl

@[simp] theorem runSorter_cnt (b : Buf) (n : Nat) (s : State) : (runSorter b n s).cnt = s.cnt := rfl

@[simp] theorem runSorter_head (b : Buf) (n : Nat) (s : State) : (runSorter b n s).head = s.head := rfl

@[simp] theorem runSorter_resets (b : Buf) (n : Nat) (s : State) : (runSorter b n s).resets = s.resets := rfl

@[simp] theorem runSorter_inputs (b : Buf) (n : Nat) (s : State) : (runSorter b n s).inputs = s.inputs := rfl

@[simp] theorem runSorter_replies (b : Buf) (n : Nat) (s : State) : (runSorter b n s).replies = s.replies := rfl

@[simp] theorem runForward_err (b : Buf) (n : Nat) (s : State) : (runForward b n s).err = s.err := by
  simp [runForward]

@[simp] theorem runForward_len (b : Buf) (n : Nat) (s : State) : (runForward b n s).len = s.len := by
  simp [runForward]

@[simp] theorem runForward_cap (b : Buf) (n : Nat) (s : State) : (runForward b n s).cap = s.cap := by
  simp [runForward]

@[simp] theorem runForward_tables (b : Buf) (n : Nat) (s : State) : (runForward b n s).tables = s.tables := by
  simp [runForward]

@[simp] theorem runForward_fcol (b : Buf) (n : Nat) (s : State) : (runForward b n s).fcol = s.fcol := by
  simp [runForward]

@[simp] theorem runForward_nxt (b : Buf) (n : Nat) (s : State) : (runForward b n s).nxt = s.nxt := by
  simp [runForward]

@[simp] theorem runForward_cnt (b : Buf) (n : Nat) (s : State) : (runForward b n s).cnt = s.cnt := by
  simp [runForward]

@[simp] theorem runForward_head (b : Buf) (n : Nat) (s : State) : (runForward b n s).head = s.head := by
  simp [runForward]

@[simp] theorem runForward_resets (b : Buf) (n : Nat) (s : State) : (runForward b n s).resets = s.resets := by
  simp [runForward]

@[simp] theorem runForward_inputs (b : Buf) (n : Nat) (s : State) : (runForward b n s).inputs = s.inputs := by
  simp [runForward]

@[simp] theorem runForward_replies (b : Buf) (n : Nat) (s : State) : (runForward b n s).replies = s.replies := by
  simp [runForward]

@[simp] theorem runInverse_err (b : Buf) (n fi : Nat) (s : State) : (runInverse b n fi s).err = s.err := by
  simp [runInverse]

@[simp] theorem runInverse_len (b : Buf) (n fi : Nat) (s : State) : (runInverse b n fi s).len = s.len := by
  simp [runInverse]

@[simp] theorem runInverse_fidx (b : Buf) (n fi : Nat) (s : State) : (runInverse b n fi s).fidx = s.fidx := by
  simp [runInverse]

@[simp] theorem runInverse_cap (b : Buf) (n fi : Nat) (s : State) : (runInverse b n fi s).cap = s.cap := by
  simp [runInverse]

@[simp] theorem runInverse_ord (b : Buf) (n fi : Nat) (s : State) : (runInverse b n fi s).ord = s.ord := by
  simp [runInverse]

@[simp] theorem runInverse_tables (b : Buf) (n fi : Nat) (s : State) : (runInverse b n fi s).tables = s.tables := by
  simp [runInverse]

@[simp] theorem runInverse_stack (b : Buf) (n fi : Nat) (s : State) : (runInverse b n fi s).stack = s.stack := by
  simp [runInverse]

@[simp] theorem runInverse_sp (b : Buf) (n fi : Nat) (s : State) : (runInverse b n fi s).sp = s.sp := by
  simp [runInverse]

@[simp] theorem runInverse_resets (b : Buf) (n fi : Nat) (s : State) : (runInverse b n fi s).resets = s.resets := by
  simp [runInverse]

@[simp] theorem runInverse_inputs (b : Buf) (n fi : Nat) (s : State) : (runInverse b n fi s).inputs = s.inputs := by
  simp [runInverse]

@[simp] theorem runInverse_replies (b : Buf) (n fi : Nat) (s : State) : (runInverse b n fi s).replies = s.replies := by
  simp [runInverse]

@[simp] theorem finishRecode_err (b : Buf) (r : List Byte × MtfTables) (s : State) : (finishRecode b r s).err = s.err := by
  simp [finishRecode]

@[simp] theorem finishRecode_len (b : Buf) (r : List Byte × MtfTables) (s : State) : (finishRecode b r s).len = s.len := by
  simp [finishRecode]

@[simp] theorem finishRecode_fidx (b : Buf) (r : List Byte × MtfTables) (s : State) : (finishRecode b r s).fidx = s.fidx := by
  simp [finishRecode]

@[simp] theorem finishRecode_cap (b : Buf) (r : List Byte × MtfTables) (s : State) : (finishRecode b r s).cap = s.cap := by
  simp [finishRecode]

@[simp] theorem finishRecode_ord (b : Buf) (r : List Byte × MtfTables) (s : State) : (finishRecode b r s).ord = s.ord := by
  simp [finishRecode]

@[simp] theorem finishRecode_fcol (b : Buf) (r : List Byte × MtfTables) (s : State) : (finishRecode b r s).fcol = s.fcol := by
  simp [finishRecode]

@[simp] theorem finishRecode_nxt (b : Buf) (r : List Byte × MtfTables) (s : State) : (finishRecode b r s).nxt = s.nxt := by
  simp [finishRecode]

@[simp] theorem finishRecode_cnt (b : Buf) (r : List Byte × MtfTables) (s : State) : (finishRecode b r s).cnt = s.cnt := by
  simp [finishRecode]

@[simp] theorem finishRecode_head (b : Buf) (r : List Byte × MtfTables) (s : State) : (finishRecode b r s).head = s.head := by
  simp [finishRecode]

@[simp] theorem finishRecode_stack (b : Buf) (r : List Byte × MtfTables) (s : State) : (finishRecode b r s).stack = s.stack := by
  simp [finishRecode]

@[simp] theorem finishRecode_sp (b : Buf) (r : List Byte × MtfTables) (s : State) : (finishRecode b r s).sp = s.sp := by
  simp [finishRecode]

@[simp] theorem finishRecode_resets (b : Buf) (r : List Byte × MtfTables) (s : State) : (finishRecode b r s).resets = s.resets := by
  simp [finishRecode]

@[simp] theorem finishRecode_inputs (b : Buf) (r : List Byte × MtfTables) (s : State) : (finishRecode b r s).inputs = s.inputs := by
  simp [finishRecode]

@[simp] theorem finishRecode_replies (b : Buf) (r : List Byte × MtfTables) (s : State) : (finishRecode b r s).replies = s.replies := by
  simp [finishRecode]

@[simp] theorem runSorter_buf (b c : Buf) (n : Nat) (s : State) : (runSorter b n s).buf c = s.buf c := by
  cases c <;> rfl

@[simp] theorem runForward_ord (b : Buf) (n : Nat) (s : State) : (runForward b n s).ord = (runSorter b n s).ord := by
  simp [runForward]

@[simp] theorem runForward_stack (b : Buf) (n : Nat) (s : State) :
    (runForward b n s).stack = (runSorter b n s).stack := by
  simp [runForward]

@[simp] theorem runForward_sp (b : Buf) (n : Nat) (s : State) : (runForward b n s).sp = (runSorter b n s).sp := by
  simp [runForward]

@[simp] theorem runForward_src (b : Buf) (n : Nat) (s : State) : (runForward b n s).buf b = s.buf b := by
  rw [runForward, writeBlock_buf_of_ne _ _ (ne_dstOf b)]
  exact State.buf_congr rfl rfl b

theorem runForward_dst (b : Buf) (n : Nat) (s : State) :
    (runForward b n s).buf (dstOf b) = (s.buf (dstOf b)).setFrom 0
      (payloadLoop (readBlock s b n) 0 0 (sortMicro (readBlock s b n) s.resets s.stack).ord).2 := by
  rw [runForward, writeBlock_buf_same]
  exact congrArg (fun m => Memory.setFrom m 0 _) (State.buf_congr rfl rfl (dstOf b))

@[simp] theorem runInverse_src (b : Buf) (n fi : Nat) (s : State) : (runInverse b n fi s).buf b = s.buf b := by
  rw [runInverse, writeBlock_buf_of_ne _ _ (ne_dstOf b)]
  exact State.buf_congr rfl rfl b

theorem runInverse_dst (b : Buf) (n fi : Nat) (s : State) :
    (runInverse b n fi s).buf (dstOf b) = (s.buf (dstOf b)).setFrom 0 (inverseMicro (readBlock s b n) fi).out := by
  rw [runInverse, writeBlock_buf_same]
  exact congrArg (fun m => Memory.setFrom m 0 _) (State.buf_congr rfl rfl (dstOf b))

@[simp] theorem finishRecode_src (b : Buf) (r : List Byte × MtfTables) (s : State) :
    (finishRecode b r s).buf b = s.buf b := by
  rw [finishRecode, writeBlock_buf_of_ne _ _ (ne_dstOf b)]
  exact State.buf_congr rfl rfl b

theorem finishRecode_dst (b : Buf) (r : List Byte × MtfTables) (s : State) :
    (finishRecode b r s).buf (dstOf b) = (s.buf (dstOf b)).setFrom 0 r.1 := by
  rw [finishRecode, writeBlock_buf_same]
  exact congrArg (fun m => Memory.setFrom m 0 _) (State.buf_congr rfl rfl (dstOf b))

@[simp] theorem finishRecode_tables (b : Buf) (r : List Byte × MtfTables) (s : State) :
    (finishRecode b r s).tables = r.2 := by
  simp [finishRecode]

/-! ### What reading the results gives -/

/-- Setting STATUS.ERR changes no read. -/
@[simp] theorem bufRead_with_err (s : State) (e : BitVec 4) (b : Buf) (i : Nat) :
    bufRead { s with err := e } b i = bufRead s b i :=
  bufRead_eq_of_buf (State.buf_congr rfl rfl b) rfl i

@[simp] theorem ordRead_with_err (s : State) (e : BitVec 4) (i : Nat) : ordRead { s with err := e } i = ordRead s i :=
  rfl

@[simp] theorem readBlock_with_err (s : State) (e : BitVec 4) (b : Buf) (n : Nat) :
    readBlock { s with err := e } b n = readBlock s b n := by
  simp [readBlock]

@[simp] theorem order_with_err (s : State) (e : BitVec 4) (n : Nat) :
    State.order { s with err := e } n = s.order n := rfl

/-- ORD[0..n) after SORT_MICRO. -/
theorem order_runSorter (b : Buf) {n : Nat} (s : State) (h32 : n < 2 ^ 32) :
    (runSorter b n s).order n = (sortMicro (readBlock s b n) s.resets s.stack).ord := by
  have hl : (readBlock s b n).length < 2 ^ 32 := by simpa using h32
  have h1 : (toWords (sortMicro (readBlock s b n) s.resets s.stack).ord).length = n := by
    rw [toWords_length, sortMicro_ord_length _ _ hl, readBlock_length]
  have h2 := readOrd_of_setFrom (s := s) (t := runSorter b n s)
    (vs := toWords (sortMicro (readBlock s b n) s.resets s.stack).ord) rfl rfl
  rw [h1] at h2
  rw [State.order, h2, toWords_toNat (sortMicro_ord_lt _ _ hl)]

/-- ORD[n..NMAX) after SORT_MICRO. -/
theorem ordRead_runSorter_ge (b : Buf) {n : Nat} (s : State) (h32 : n < 2 ^ 32) {i : Nat} (hi : n ≤ i) :
    ordRead (runSorter b n s) i = ordRead s i := by
  have hl : (readBlock s b n).length < 2 ^ 32 := by simpa using h32
  rw [ordRead_of_setFrom (s := s) (t := runSorter b n s)
    (vs := toWords (sortMicro (readBlock s b n) s.resets s.stack).ord) rfl rfl, dif_neg]
  rw [toWords_length, sortMicro_ord_length _ _ hl, readBlock_length]
  omega

theorem runSorter_isOrder (b : Buf) {n : Nat} (s : State) (h32 : n < 2 ^ 32) :
    IsOrder (readBlock s b n) ((runSorter b n s).order n) := by
  rw [order_runSorter b s h32]
  exact sortMicro_isOrder _ _ _ (by simpa using h32)

/-- DSTBUF[0..n) after BWTF_MICRO: the payload of the order. -/
theorem readBlock_runForward (b : Buf) {n : Nat} (s : State) (h32 : n < 2 ^ 32) :
    readBlock (runForward b n s) (dstOf b) n =
      ((runForward b n s).order n).map (payloadByte (readBlock s b n)) := by
  have hl : (readBlock s b n).length < 2 ^ 32 := by simpa using h32
  have ho : (runForward b n s).order n = (sortMicro (readBlock s b n) s.resets s.stack).ord := by
    rw [← order_runSorter b s h32, State.order, State.order, readOrd, readOrd]
    congr 1
    exact List.map_congr_left fun i _ => ordRead_eq_of_ord (by simp) (by simp) i
  have h2 := readBlock_of_setFrom (runForward_dst b n s) (by simp)
  rw [payloadLoop_bytes] at h2
  have h1 : ((sortMicro (readBlock s b n) s.resets s.stack).ord.map (payloadByte (readBlock s b n))).length = n := by
    rw [List.length_map, sortMicro_ord_length _ _ hl, readBlock_length]
  rw [h1] at h2
  rw [h2, ho]

theorem order_runForward (b : Buf) {n : Nat} (s : State) :
    (runForward b n s).order n = (runSorter b n s).order n := by
  rw [State.order, State.order, readOrd, readOrd]
  congr 1
  exact List.map_congr_left fun i _ => ordRead_eq_of_ord (by simp) (by simp) i

theorem runForward_isOrder (b : Buf) {n : Nat} (s : State) (h32 : n < 2 ^ 32) :
    IsOrder (readBlock s b n) ((runForward b n s).order n) := by
  rw [order_runForward]
  exact runSorter_isOrder b s h32

/-- FIDX after BWTF_MICRO: the row of offset 0. -/
theorem runForward_fidx (b : Buf) {n : Nat} (s : State) (h32 : n < 2 ^ 32) (hn : 1 ≤ n) :
    (runForward b n s).fidx.toNat = ((runForward b n s).order n).idxOf 0 := by
  have hl : (readBlock s b n).length < 2 ^ 32 := by simpa using h32
  have ho := (sortMicro_isOrder (readBlock s b n) s.resets s.stack hl).weak.firstRow (by simpa using hn)
  have h1 : (runForward b n s).fidx = BitVec.ofNat 32 (payloadLoop (readBlock s b n) 0 0
      (sortMicro (readBlock s b n) s.resets s.stack).ord).1 := by
    simp [runForward]
  rw [order_runForward, order_runSorter b s h32, h1, ho.2.2, BitVec.toNat_ofNat, Nat.mod_eq_of_lt]
  exact ho.1.trans hl

/-- DSTBUF[n..NMAX) after BWTF_MICRO. -/
theorem bufRead_runForward_ge (b : Buf) {n : Nat} (s : State) (h32 : n < 2 ^ 32) {i : Nat} (hi : n ≤ i) :
    bufRead (runForward b n s) (dstOf b) i = bufRead s (dstOf b) i := by
  have hl : (readBlock s b n).length < 2 ^ 32 := by simpa using h32
  rw [bufRead_of_setFrom (runForward_dst b n s) (by simp), dif_neg]
  rw [payloadLoop_bytes, List.length_map, sortMicro_ord_length _ _ hl, readBlock_length]
  omega

/-- DSTBUF[0..n) after BWTI_MICRO. -/
theorem readBlock_runInverse (b : Buf) (n fi : Nat) (s : State) :
    readBlock (runInverse b n fi s) (dstOf b) n = (inverseMicro (readBlock s b n) fi).out := by
  have h2 := readBlock_of_setFrom (runInverse_dst b n fi s) (by simp)
  rw [inverseMicro_out_length, readBlock_length] at h2
  exact h2

/-- DSTBUF[n..NMAX) after BWTI_MICRO. -/
theorem bufRead_runInverse_ge (b : Buf) (n fi : Nat) (s : State) {i : Nat} (hi : n ≤ i) :
    bufRead (runInverse b n fi s) (dstOf b) i = bufRead s (dstOf b) i := by
  rw [bufRead_of_setFrom (runInverse_dst b n fi s) (by simp), dif_neg]
  rw [inverseMicro_out_length, readBlock_length]
  omega

/-- DSTBUF[0..n) after an MTF run that emits n bytes. -/
theorem readBlock_finishRecode (b : Buf) (r : List Byte × MtfTables) (s : State) {n : Nat} (h : r.1.length = n) :
    readBlock (finishRecode b r s) (dstOf b) n = r.1 := by
  subst h
  exact readBlock_of_setFrom (finishRecode_dst b r s) (by simp)

/-- DSTBUF[n..NMAX) after an MTF run that emits n bytes. -/
theorem bufRead_finishRecode_ge (b : Buf) (r : List Byte × MtfTables) (s : State) {i : Nat} (hi : r.1.length ≤ i) :
    bufRead (finishRecode b r s) (dstOf b) i = bufRead s (dstOf b) i := by
  rw [bufRead_of_setFrom (finishRecode_dst b r s) (by simp), dif_neg]
  omega

/-! ### What each command answers, with its next state left abstract -/

theorem exec_sort_spec {s : State} (b : Buf) (h : s.len.toNat ≤ s.cap.toNat) :
    ∃ t, exec (.sort b) s = .next t ∧ t.err = 0 ∧ t.len = s.len ∧ t.fidx = s.fidx ∧ t.cap = s.cap ∧
      t.resets = s.resets ∧ t.tables = s.tables ∧ t.bufA = s.bufA ∧ t.bufB = s.bufB ∧
      IsOrder (readBlock s b s.len.toNat) (t.order s.len.toNat) :=
  ⟨_, exec_sort_fits b h, rfl, rfl, rfl, rfl, rfl, rfl, rfl, rfl, runSorter_isOrder b s s.len.isLt⟩

theorem exec_bwtf_spec {s : State} (b : Buf) (h : s.len.toNat ≤ s.cap.toNat) (h0 : 1 ≤ s.len.toNat) :
    ∃ t, exec (.bwtf b) s = .next t ∧ t.err = 0 ∧ t.len = s.len ∧ t.cap = s.cap ∧ t.resets = s.resets ∧
      t.tables = s.tables ∧ t.buf b = s.buf b ∧ IsOrder (readBlock s b s.len.toNat) (t.order s.len.toNat) ∧
      t.fidx.toNat = (t.order s.len.toNat).idxOf 0 ∧
      readBlock t (dstOf b) s.len.toNat = (t.order s.len.toNat).map (payloadByte (readBlock s b s.len.toNat)) := by
  refine ⟨_, exec_bwtf_fits b h h0, rfl, runForward_len _ _ _, runForward_cap _ _ _, runForward_resets _ _ _,
    runForward_tables _ _ _, ?_, runForward_isOrder b s s.len.isLt, runForward_fidx b s s.len.isLt h0, ?_⟩
  · exact (State.buf_congr rfl rfl b).trans (runForward_src b _ s)
  · rw [readBlock_with_err]
    exact readBlock_runForward b s s.len.isLt

theorem exec_bwti_spec {s : State} (b : Buf) (h : s.len.toNat ≤ s.cap.toNat) (hf : s.fidx.toNat < s.len.toNat) :
    ∃ t, exec (.bwti b) s = .next t ∧ t.err = 0 ∧ t.len = s.len ∧ t.fidx = s.fidx ∧ t.cap = s.cap ∧
      t.resets = s.resets ∧ t.tables = s.tables ∧ t.ord = s.ord ∧ t.buf b = s.buf b ∧
      readBlock t (dstOf b) s.len.toNat = (inverseMicro (readBlock s b s.len.toNat) s.fidx.toNat).out := by
  refine ⟨_, exec_bwti_fits b h hf, rfl, runInverse_len _ _ _ _, runInverse_fidx _ _ _ _, runInverse_cap _ _ _ _,
    runInverse_resets _ _ _ _, runInverse_tables _ _ _ _, runInverse_ord _ _ _ _, ?_, ?_⟩
  · exact (State.buf_congr rfl rfl b).trans (runInverse_src b _ _ s)
  · rw [readBlock_with_err]
    exact readBlock_runInverse b _ _ s

/-- An MTF command ends with the run `r` written back. -/
theorem finishRecode_spec (b : Buf) (r : List Byte × MtfTables) (s : State) (hr : r.1.length = s.len.toNat) :
    ∃ t, (.next { finishRecode b r s with err := 0 } : Host.Outcome State Fault Refusal) = .next t ∧ t.err = 0 ∧
      t.len = s.len ∧ t.fidx = s.fidx ∧ t.cap = s.cap ∧ t.resets = s.resets ∧ t.ord = s.ord ∧ t.buf b = s.buf b ∧
      t.tables = r.2 ∧ readBlock t (dstOf b) s.len.toNat = r.1 := by
  refine ⟨_, rfl, rfl, finishRecode_len _ _ _, finishRecode_fidx _ _ _, finishRecode_cap _ _ _,
    finishRecode_resets _ _ _, finishRecode_ord _ _ _, ?_, finishRecode_tables _ _ _, ?_⟩
  · exact (State.buf_congr rfl rfl b).trans (finishRecode_src b r s)
  · rw [readBlock_with_err]
    exact readBlock_finishRecode b r s hr

theorem exec_mtfe_spec {s : State} (b : Buf) (c : Bool) (h : s.len.toNat ≤ s.cap.toNat) :
    ∃ t, exec (.mtfe b c) s = .next t ∧ t.err = 0 ∧ t.len = s.len ∧ t.fidx = s.fidx ∧ t.cap = s.cap ∧
      t.resets = s.resets ∧ t.ord = s.ord ∧ t.buf b = s.buf b ∧
      t.tables = (encodeRun (startTables c s) (readBlock s b s.len.toNat)).2 ∧
      readBlock t (dstOf b) s.len.toNat = (encodeRun (startTables c s) (readBlock s b s.len.toNat)).1 := by
  rw [exec_mtfe_fits b c h]
  exact finishRecode_spec b _ s (by simp)

theorem exec_mtfd_spec {s : State} (b : Buf) (c : Bool) (h : s.len.toNat ≤ s.cap.toNat) :
    ∃ t, exec (.mtfd b c) s = .next t ∧ t.err = 0 ∧ t.len = s.len ∧ t.fidx = s.fidx ∧ t.cap = s.cap ∧
      t.resets = s.resets ∧ t.ord = s.ord ∧ t.buf b = s.buf b ∧
      t.tables = (decodeRun (startTables c s) (readBlock s b s.len.toNat)).2 ∧
      readBlock t (dstOf b) s.len.toNat = (decodeRun (startTables c s) (readBlock s b s.len.toNat)).1 := by
  rw [exec_mtfd_fits b c h]
  exact finishRecode_spec b _ s (by simp)

end Sys2Proof.Machine
end

