-- ==== Sys2Proof/Laws/PerInstr.lean ====
section
/-! SUPPORT. Statements about every command as syntax, one lemma per constructor. -/

namespace Sys2Proof.Laws.EncodesLegal

/-- The command is well-formed, and the fields of its word are the command's own fields, so they pass every check of
30_encoding.md R97. -/
def Statement (i : Instr) : Prop := i.WellFormed = true ∧ fieldsOf (encode i) = i.fields

theorem nop : Statement .nop := by
  unfold Statement
  decide

theorem sort (src : Buf) : Statement (.sort src) := by
  unfold Statement
  cases src <;> decide

theorem bwtf (src : Buf) : Statement (.bwtf src) := by
  unfold Statement
  cases src <;> decide

theorem bwti (src : Buf) : Statement (.bwti src) := by
  unfold Statement
  cases src <;> decide

theorem mtfe (src : Buf) (cont : Bool) : Statement (.mtfe src cont) := by
  unfold Statement
  cases src <;> cases cont <;> decide

theorem mtfd (src : Buf) (cont : Bool) : Statement (.mtfd src cont) := by
  unfold Statement
  cases src <;> cases cont <;> decide

end Sys2Proof.Laws.EncodesLegal
end

