-- ==== Sys2Proof/Tests/Slice0.lean ====
section
/-! SUPPORT. Tests with expected values from spec/95_test_vectors.md (V1 to V16) and from the encoding tables of
spec/30_encoding.md, and for every statement with hypotheses a theorem that shows a state and operands meeting them. -/

namespace Sys2Proof.Tests

set_option Elab.async false

open Sys2Proof.Machine

/-! ### Helpers -/

/-- A just reset instance (NMAX = 4096) with `bytes` in BUFA, LEN their number, and a given FIDX. -/
def loaded (bytes : List Byte) (fidx : Word) : State :=
  { State.reset with bufA := Memory.setFrom [] 0 bytes, len := BitVec.ofNat 32 bytes.length, fidx := fidx }

/-- The next state of an outcome. -/
def after (o : Host.Outcome State Fault Refusal) : State :=
  match o with
  | .next s => s
  | _ => State.reset

/-- The bytes of a text. -/
def text (cs : List Char) : List Byte := cs.map fun c => BitVec.ofNat 8 c.toNat

theorem exec_after (i : Instr) (s : State) : exec i s = .next (after (exec i s)) := by
  rcases exec_cases i s with ⟨e, -, h⟩ | ⟨h, -⟩ <;> rw [h] <;> rfl

theorem step_after (w : Word) (s : State) (h : (decode w).toOption.isSome = true) :
    step (issueWord w s) = .next (after (step (issueWord w s))) := by
  have h1 : step (issueWord w s) = execWord w s := rfl
  rw [h1]
  unfold execWord
  cases hd : decode w with
  | error e => rw [hd] at h; cases h
  | ok i => exact exec_after i s

def abra : List Byte := text ['A', 'B', 'R', 'A', 'C', 'A', 'D', 'A', 'B', 'R', 'A', '!']

def abraPayload : List Byte := text ['A', 'R', 'D', '!', 'R', 'C', 'A', 'A', 'A', 'A', 'B', 'B']

def banana : List Byte := text ['B', 'A', 'N', 'A', 'N', 'A']

def abab : List Byte := text ['A', 'B', 'A', 'B']

def mississippi : List Byte :=
  text ['M', 'I', 'S', 'S', 'I', 'S', 'S', 'I', 'P', 'P', 'I', ' ', 'R', 'I', 'V', 'E', 'R']

/-! ### WellFormed: an ill-formed term for each check, which the check refuses (R95, R91, R92 and R93 with OP = 0, R93) -/

theorem test_wellFormed_zero : (Fields.mk 1 false false 1).zeroOk = false ∧ (Fields.mk 1 false false 1).legal = false := by
  decide

theorem test_wellFormed_op : (Fields.mk 6 false false 0).opOk = false ∧ (Fields.mk 6 false false 0).legal = false := by
  decide

theorem test_wellFormed_nop : (Fields.mk 0 true false 0).nopOk = false ∧ (Fields.mk 0 false true 0).nopOk = false ∧
    (Fields.mk 0 true false 0).legal = false := by
  decide

theorem test_wellFormed_cont : (Fields.mk 3 false true 0).contOk = false ∧ (Fields.mk 3 false true 0).legal = false := by
  decide

/-! ### Decoding: words written out as ZERO, CONT, SRC, OP from the layout of R90 and the table of R96 -/

theorem test_decode_nop : decode (0#26 ++ 0#1 ++ 0#1 ++ 0b0000#4) = .ok .nop := by decide

theorem test_decode_sort : decode (0#26 ++ 0#1 ++ 0#1 ++ 0b0001#4) = .ok (.sort .bufA) ∧
    decode (0#26 ++ 0#1 ++ 1#1 ++ 0b0001#4) = .ok (.sort .bufB) := by decide

theorem test_decode_bwtf : decode (0#26 ++ 0#1 ++ 0#1 ++ 0b0010#4) = .ok (.bwtf .bufA) ∧
    decode (0#26 ++ 0#1 ++ 1#1 ++ 0b0010#4) = .ok (.bwtf .bufB) := by decide

theorem test_decode_bwti : decode (0#26 ++ 0#1 ++ 0#1 ++ 0b0011#4) = .ok (.bwti .bufA) ∧
    decode (0#26 ++ 0#1 ++ 1#1 ++ 0b0011#4) = .ok (.bwti .bufB) := by decide

theorem test_decode_mtfe : decode (0#26 ++ 0#1 ++ 0#1 ++ 0b0100#4) = .ok (.mtfe .bufA false) ∧
    decode (0#26 ++ 0#1 ++ 1#1 ++ 0b0100#4) = .ok (.mtfe .bufB false) ∧
    decode (0#26 ++ 1#1 ++ 0#1 ++ 0b0100#4) = .ok (.mtfe .bufA true) ∧
    decode (0#26 ++ 1#1 ++ 1#1 ++ 0b0100#4) = .ok (.mtfe .bufB true) := by decide

theorem test_decode_mtfd : decode (0#26 ++ 0#1 ++ 0#1 ++ 0b0101#4) = .ok (.mtfd .bufA false) ∧
    decode (0#26 ++ 0#1 ++ 1#1 ++ 0b0101#4) = .ok (.mtfd .bufB false) ∧
    decode (0#26 ++ 1#1 ++ 0#1 ++ 0b0101#4) = .ok (.mtfd .bufA true) ∧
    decode (0#26 ++ 1#1 ++ 1#1 ++ 0b0101#4) = .ok (.mtfd .bufB true) := by decide

/-- The illegal words of V4 and those R97 names. -/
theorem test_decode_illegal :
    ([0x06, 0x0F, 0x10, 0x20, 0x30, 0x21, 0x22, 0x33, 0x40, 0x80000001, 0xFFFFFFFF] : List Word).all
      (fun w => (decode w).toOption.isNone) = true := by decide +kernel

/-- The numbering of spec/opcode_table.json. -/
theorem test_decodeTableWord : decodeTableWord 32 0x34 = some (.mtfe .bufB true) ∧ decodeTableWord 32 0x41 = none := by
  decide +kernel

/-! ### The commands -/

/-- STATUS = 2 after a failed BWTI; NOP; STATUS = 0 (R207). -/
theorem test_nop_clears_status :
    (after (exec (.bwti .bufA) (loaded abra 12))).err = 2 ∧
      (after (exec .nop (after (exec (.bwti .bufA) (loaded abra 12))))).err = 0 := by decide +kernel

/-- V11: NOP does not sample LEN. -/
theorem test_nop_ignores_len : (after (exec .nop { loaded abra 0 with len := 4097 })).err = 0 := by decide +kernel

/-- V5, n >= CUTOFF: one PARTITION (R138). -/
theorem test_sort_partition : (after (exec (.sort .bufA) (loaded mississippi 0))).order 17 =
    [11, 15, 10, 7, 4, 1, 13, 0, 9, 8, 12, 16, 6, 3, 5, 2, 14] := by decide +kernel

/-- V5: unsigned bytes, and the tie-break inside each class. -/
theorem test_sort_unsigned_and_ties :
    (after (exec (.sort .bufA) (loaded [0x80, 0x7F, 0xFF, 0x00] 0))).order 4 = [3, 1, 0, 2] ∧
      (after (exec (.sort .bufA) (loaded abab 0))).order 4 = [0, 2, 1, 3] := by decide +kernel

/-- V1. -/
theorem test_bwtf_known_vector :
    (after (exec (.bwtf .bufA) (loaded abra 0))).fidx = 3 ∧
      (after (exec (.bwtf .bufA) (loaded abra 0))).block .bufB = abraPayload ∧
      (after (exec (.bwtf .bufA) (loaded abra 0))).order 12 = [11, 10, 7, 0, 3, 5, 8, 1, 4, 6, 9, 2] := by
  decide +kernel

/-- V6: a repeated string, and bytes above 127. -/
theorem test_bwtf_ties_and_unsigned :
    (after (exec (.bwtf .bufA) (loaded abab 0))).fidx = 0 ∧
      (after (exec (.bwtf .bufA) (loaded abab 0))).block .bufB = text ['B', 'B', 'A', 'A'] ∧
      (after (exec (.bwtf .bufA) (loaded [0x80, 0x7F, 0xFF, 0x00] 0))).fidx = 2 ∧
      (after (exec (.bwtf .bufA) (loaded [0x80, 0x7F, 0xFF, 0x00] 0))).block .bufB = [0xFF, 0x80, 0x00, 0x7F] := by
  decide +kernel

/-- V7: the known vector, and the rotation that another first index gives. -/
theorem test_bwti_known_vector :
    (after (exec (.bwti .bufA) (loaded abraPayload 3))).block .bufB = abra ∧
      (after (exec (.bwti .bufA) (loaded abraPayload 11))).block .bufB = abra.drop 2 ++ abra.take 2 := by decide +kernel

/-- V7: no string has the payload "AB"; it is not detected (R170). -/
theorem test_bwti_not_a_transform :
    (after (exec (.bwti .bufA) (loaded (text ['A', 'B']) 0))).block .bufB = text ['A', 'A'] ∧
      (after (exec (.bwti .bufA) (loaded (text ['A', 'B']) 0))).err = 0 := by decide +kernel

/-- V8. -/
theorem test_mtfe_table :
    (after (exec (.mtfe .bufA false) (loaded [5, 4, 3, 2, 1, 0] 0))).block .bufB = [5, 5, 5, 5, 5, 5] ∧
      (after (exec (.mtfe .bufA false) (loaded [5, 4, 3, 2, 1, 0] 0))).tables.morder.toList.take 7 =
        [0, 1, 2, 3, 4, 5, 6] := by decide +kernel

/-- V10: the second piece of V2, after `MTFE A` on 65 65 65, with CONT = 1 and with CONT = 0. -/
theorem test_mtfe_cont :
    (after (exec (.mtfe .bufA true) { loaded [66, 66, 65] 0 with
      tables := (after (exec (.mtfe .bufA false) (loaded [65, 65, 65] 0))).tables })).block .bufB = [66, 0, 1] ∧
    (after (exec (.mtfe .bufA false) { loaded [66, 66, 65] 0 with
      tables := (after (exec (.mtfe .bufA false) (loaded [65, 65, 65] 0))).tables })).block .bufB = [66, 0, 66] := by
  decide +kernel

/-- V9. -/
theorem test_mtfd_table :
    (after (exec (.mtfd .bufA false) (loaded [66, 66, 78, 1, 1, 1] 0))).block .bufB = banana ∧
      (after (exec (.mtfd .bufA false) (loaded [1, 2, 3, 3] 0))).block .bufB = [1, 2, 3, 0] := by decide +kernel

/-- V10: a mixed chain, `MTFE A` on 65 66 and then `MTFD A, C` on 1 0. -/
theorem test_mtfd_cont :
    (after (exec (.mtfd .bufA true) { loaded [1, 0] 0 with
      tables := (after (exec (.mtfe .bufA false) (loaded [65, 66] 0))).tables })).block .bufB = [65, 65] := by
  decide +kernel

/-! ### Errors, host operations, reset -/

/-- V11: the codes and their order. -/
theorem test_priority :
    (after (execWord 0x46 { loaded abra 0 with len := 4097 })).err = 3 ∧
      (after (execWord 0x01 { loaded abra 0 with len := 4097 })).err = 1 ∧
      (after (execWord 0x03 { loaded abra 6000 with len := 5000 })).err = 1 ∧
      (after (execWord 0x03 (loaded abra 12))).err = 2 ∧ (after (execWord 0x03 (loaded abra 0xFFFFFFFF))).err = 2 ∧
      (after (execWord 0x02 (loaded [] 0))).err = 1 ∧ (after (execWord 0x03 (loaded [] 0))).err = 2 ∧
      (after (execWord 0x04 { loaded abra 0 with len := 0xFFFFFFFF })).err = 1 := by decide +kernel

/-- V12, as host scripts of one or two operations. -/
theorem test_host_operations :
    (after (Host.Core.run core 2 (loadScript [.WR .CAP 1, .RD .CAP] State.reset))).replies = [.word 4096] ∧
      (after (Host.Core.run core 2 (loadScript [.WR .LEN 0x12345678, .RD .LEN] State.reset))).replies =
        [.word 0x12345678] ∧
      (after (Host.Core.run core 2 (loadScript [.WB .bufA 4095 [0xAB], .RB .bufA 4095 1] State.reset))).replies =
        [.byte 0xAB] ∧
      (after (Host.Core.run core 2 (loadScript [.WB .bufA 4096 [0xAB], .RB .bufA 4096 1] State.reset))).replies =
        [.byte 0] ∧
      (after (Host.Core.run core 1 (loadScript [.RO 4096 1] State.reset))).replies = [.word 0] := by decide +kernel

/-- V16. -/
theorem test_wire_record :
    wireRecord Config.wireOrder 3 abraPayload =
      [0x00, 0x00, 0x00, 0x03, 0x41, 0x52, 0x44, 0x21, 0x52, 0x43, 0x41, 0x41, 0x41, 0x41, 0x42, 0x42] ∧
    wireHeader .littleEndian 3 = [0x03, 0x00, 0x00, 0x00] := by decide +kernel

/-- V2 and V16: the stream of an MTFE has no header, that of a BWTF begins with it, and R210 gives SORT none. -/
theorem test_wire_streams :
    wireStream Config.wireOrder (.mtfe .bufA false) 6
        (after (exec (.mtfe .bufA false) (loaded [65, 65, 65, 66, 66, 65] 0))) = some [65, 0, 0, 66, 0, 1] ∧
      wireStream Config.wireOrder (.bwtf .bufA) 12 (after (exec (.bwtf .bufA) (loaded abra 0))) =
        some ([0x00, 0x00, 0x00, 0x03] ++ abraPayload) ∧
      wireStream Config.wireOrder (.sort .bufA) 12 (loaded abra 0) = none := by decide +kernel

/-- A word written to CMD right after reset runs (V4: 0x00000012 ends with code 1 while LEN = 0). -/
theorem test_first_step : (after (step (State.reset.withFetchWord 32 0x12))).err = 1 ∧
    (after (step (State.reset.withFetchWord 32 0x24))).err = 0 := by decide +kernel

/-! ### Witnesses: for each statement with hypotheses, a state and operands that meet them all -/

theorem witness_DecodeAndEncodeAgree : (Instr.mtfd .bufB true).WellFormed = true ∧ decode 0x35 = .ok (.mtfd .bufB true) := by
  decide +kernel

theorem witness_StepRunsDecodedCommand :
    decode 0x12 = .ok (.bwtf .bufB) ∧ (loadScript [.command (.bwtf .bufB), .RD .STATUS] State.reset).inputs =
      .op (.hwr 0 0x12) :: [.op (.hrd 1)] ∧ (0x12 : Nat) < 2 ^ 32 ∧
      decode (BitVec.ofNat 32 0x12) = .ok (.bwtf .bufB) := by decide +kernel

/-- Each clause at a boundary: the last element of a buffer and the first index past it. -/
theorem witness_BufferWrites : 4095 < State.reset.cap.toNat ∧ State.reset.cap.toNat ≤ 4096 ∧
    ((Buf.bufB, 4095) : Buf × Nat) ≠ (.bufA, 4095) := by decide +kernel

theorem witness_RegisterWrites : ((1 : Nat) = 1 ∨ 4 ≤ 1) ∧ ((4 : Nat) = 1 ∨ 4 ≤ 4) ∧ ((8 : Nat) = 1 ∨ 4 ≤ 8) := by decide

theorem witness_RegisterReads : (4 : Nat) = 4 ∧ 5 ≤ 5 ∧ 5 ≤ 8 := by decide

theorem witness_BufferAndOrderReads : 0 < State.reset.cap.toNat ∧ 4095 < State.reset.cap.toNat ∧
    State.reset.cap.toNat ≤ 4096 := by decide +kernel

theorem witness_WrittenBytesReadBack : 4094 + ([0xAB, 0xCD] : List Byte).length ≤ State.reset.cap.toNat ∧
    State.reset.inputs = [] := by decide +kernel

theorem witness_HostReachesOnlyItsSpaces : (∀ v, HostOp.hwb .bufA 0 1 ≠ .hwr 0 v) ∧
    hostOp (.hwb .bufA 0 1) State.reset = .next (hostBufWrite .bufA 0 1 State.reset) := ⟨(fun _ h => by cases h), rfl⟩

theorem witness_CapacityIsHardwired : event (.op (.hwr 4 1)) State.reset = .next State.reset := rfl

theorem witness_IllegalRaised : (0x46 : Word) ∉ legalWords ∧ (0x06 : Word) ∉ legalWords := by decide +kernel

/-- Both causes: LEN one above NMAX, and BWTF with LEN = 0. -/
theorem witness_ValidationRaised :
    (after (exec (.sort .bufA) { State.reset with len := 4097 })).err = 1 ∧
      (after (exec (.bwtf .bufA) State.reset)).err = 1 := by decide +kernel

theorem witness_FormatRaised : (after (exec (.bwti .bufA) (loaded abra 12))).err = 2 := by decide +kernel

theorem witness_FailedCommandChangesOnlyStatus :
    execWord 0x03 (loaded abra 12) = .next { loaded abra 12 with err := 2 } ∧
      ({ loaded abra 12 with err := 2 } : State).err ≠ 0 :=
  ⟨exec_bwti_format .bufA (by decide +kernel) (by decide +kernel), by decide +kernel⟩

theorem witness_StatusIsOverwrittenAndNeverRead :
    execWord 0x03 (loaded abra 12) = .next { loaded abra 12 with err := 2 } ∧
      ({ loaded abra 12 with err := 2 } : State).err ≠ 0 := witness_FailedCommandChangesOnlyStatus

/-- LEN = 0 and LEN = NMAX. -/
theorem witness_SortOrdersRotations : (loaded [] 0).len.toNat ≤ (loaded [] 0).cap.toNat ∧
    ({ loaded abra 0 with len := 4096 } : State).len.toNat ≤ (loaded abra 0).cap.toNat := by decide +kernel

/-- No byte; and 17 bytes, where STKCAP is 8, with the last entry of STACK written before. -/
theorem witness_SortMicroRefinesOrder : ([] : List Byte).length < 2 ^ 32 ∧ mississippi.length < 2 ^ 32 ∧
    Config.stkcap mississippi.length ≤ 8 ∧ Memory.wf 8 ([(7, ⟨0, 16, 0⟩)] : Memory StackEntry) = true := by
  decide +kernel

theorem witness_SortFrame : exec (.sort .bufA) (loaded abra 0) = .next (after (exec (.sort .bufA) (loaded abra 0))) ∧
    (after (exec (.sort .bufA) (loaded abra 0))).err = 0 := ⟨exec_after _ _, by decide +kernel⟩

theorem witness_SortOfShortBlocks : (loaded [] 0).len = 0 ∧ (loaded [7] 0).len = 1 ∧ 1 ≤ (loaded [7] 0).cap.toNat := by
  decide +kernel

theorem witness_SortOfEqualBytesIsIdentity : (loaded [7, 7, 7] 0).len.toNat ≤ (loaded [7, 7, 7] 0).cap.toNat ∧
    ∀ i, i < (loaded [7, 7, 7] 0).len.toNat → bufRead (loaded [7, 7, 7] 0) .bufA i = 7 := by decide +kernel

/-- The premises of the BWTF statements, at n = 1, n = 12 and n = NMAX. -/
theorem witness_BwtfResult : 1 ≤ (loaded [7] 0).len.toNat ∧ (loaded [7] 0).len.toNat ≤ (loaded [7] 0).cap.toNat ∧
    1 ≤ (loaded abra 0).len.toNat ∧ (loaded abra 0).len.toNat ≤ (loaded abra 0).cap.toNat ∧
    1 ≤ ({ loaded abra 0 with len := 4096 } : State).len.toNat ∧
    ({ loaded abra 0 with len := 4096 } : State).len.toNat ≤ (loaded abra 0).cap.toNat := by decide +kernel

theorem witness_BwtfFrame : exec (.bwtf .bufA) (loaded abra 0) = .next (after (exec (.bwtf .bufA) (loaded abra 0))) ∧
    (after (exec (.bwtf .bufA) (loaded abra 0))).err = 0 := ⟨exec_after _ _, by decide +kernel⟩

theorem witness_BwtfPayloadProperties : 1 ≤ (loaded abra 0).len.toNat ∧
    (loaded abra 0).len.toNat ≤ (loaded abra 0).cap.toNat := by decide +kernel

theorem witness_FidxCountsSmallerRotations : 1 ≤ (loaded (abra ++ abra) 0).len.toNat ∧
    (loaded (abra ++ abra) 0).len.toNat ≤ (loaded (abra ++ abra) 0).cap.toNat := by decide +kernel

/-- For "ABAB" the order 2 0 3 1 breaks both ties the other way than SORT does. -/
theorem witness_PayloadIndependentOfTieBreak : 1 ≤ (loaded abab 0).len.toNat ∧
    (loaded abab 0).len.toNat ≤ (loaded abab 0).cap.toNat ∧ IsWeakOrder ((loaded abab 0).block .bufA) [2, 0, 3, 1] := by
  have h : (loaded abab 0).block .bufA = abab := by decide +kernel
  rw [h]
  have h2 : ∀ j, j < 4 → ∀ i, i < j → ¬ lexLt (rot abab (([2, 0, 3, 1] : List Nat).getD j 0))
      (rot abab (([2, 0, 3, 1] : List Nat).getD i 0)) := by decide +kernel
  exact ⟨by decide +kernel, by decide +kernel, by decide +kernel, fun i j hij hj => h2 j hj i hij⟩

/-- The least and the largest first index in range, at n = 12. -/
theorem witness_BwtiResult : (loaded abraPayload 0).fidx.toNat < (loaded abraPayload 0).len.toNat ∧
    (loaded abraPayload 11).fidx.toNat < (loaded abraPayload 11).len.toNat ∧
    (loaded abraPayload 11).len.toNat ≤ (loaded abraPayload 11).cap.toNat := by decide +kernel

theorem witness_BwtiFrame :
    exec (.bwti .bufA) (loaded abraPayload 3) = .next (after (exec (.bwti .bufA) (loaded abraPayload 3))) ∧
      (after (exec (.bwti .bufA) (loaded abraPayload 3))).err = 0 := ⟨exec_after _ _, by decide +kernel⟩

theorem witness_BwtiMicroSequenceBuildsColumnAndMap : 0 < abraPayload.length ∧ 11 < abraPayload.length ∧ 255 < 256 := by
  decide

/-- BWTF, and then the state it left, from which BWTI runs. -/
theorem witness_RoundTripBwt : 1 ≤ (loaded abra 0).len.toNat ∧ (loaded abra 0).len.toNat ≤ (loaded abra 0).cap.toNat ∧
    exec (.bwtf .bufA) (loaded abra 0) = .next (after (exec (.bwtf .bufA) (loaded abra 0))) ∧
    (after (exec (.bwtf .bufA) (loaded abra 0))).fidx = 3 :=
  ⟨by decide +kernel, by decide +kernel, exec_after _ _, by decide +kernel⟩

/-- `t'` is the state BWTF left with FIDX overwritten by the largest index in range. -/
theorem witness_OtherFirstIndexGivesRotation :
    1 ≤ (loaded banana 0).len.toNat ∧ (loaded banana 0).len.toNat ≤ (loaded banana 0).cap.toNat ∧
    ({ after (exec (.bwtf .bufA) (loaded banana 0)) with fidx := 5 } : State).len =
      (after (exec (.bwtf .bufA) (loaded banana 0))).len ∧
    ({ after (exec (.bwtf .bufA) (loaded banana 0)) with fidx := 5 } : State).block .bufB =
      (after (exec (.bwtf .bufA) (loaded banana 0))).block .bufB ∧
    (5 : Nat) < (after (exec (.bwtf .bufA) (loaded banana 0))).len.toNat := by decide +kernel

/-- "ABAB": no rotation is smaller and two are equal, so m = 0, ties = 2, and the first indexes are 0 and 1. -/
theorem witness_TiedFirstIndexInverts :
    1 ≤ (loaded abab 0).len.toNat ∧ (loaded abab 0).len.toNat ≤ (loaded abab 0).cap.toNat ∧ 0 ≤ 1 ∧ 1 < 0 + 2 ∧
    0 = (List.range (loaded abab 0).len.toNat).countP
      (fun k => decide (lexLt (rot ((loaded abab 0).block .bufA) k) ((loaded abab 0).block .bufA))) ∧
    2 = (List.range (loaded abab 0).len.toNat).countP
      (fun k => decide (rot ((loaded abab 0).block .bufA) k = (loaded abab 0).block .bufA)) ∧
    ({ after (exec (.bwtf .bufA) (loaded abab 0)) with fidx := 1 } : State).block .bufB =
      (after (exec (.bwtf .bufA) (loaded abab 0))).block .bufB := by decide +kernel

/-- The identity tables; for c = 5 the ranks 1 and 5 move and rank 6 does not, and c = 0 has rank 0. -/
theorem witness_FrontMovesToFront : MtfTables.identity.inverse ∧ (MtfTables.identity.mrank[(5 : Byte).toNat]).toNat = 5 ∧
    MtfTables.identity.mrank[(0 : Byte).toNat] = 0 := ⟨identity_inverse, by decide +kernel, by decide +kernel⟩

theorem witness_MtfeResult : (loaded [] 0).len.toNat ≤ (loaded [] 0).cap.toNat ∧
    (loaded banana 0).len.toNat ≤ (loaded banana 0).cap.toNat := by decide +kernel

theorem witness_MtfdResult : (loaded [] 0).len.toNat ≤ (loaded [] 0).cap.toNat ∧
    (loaded [66, 66, 78] 0).len.toNat ≤ (loaded [66, 66, 78] 0).cap.toNat := by decide +kernel

theorem witness_MtfFrame :
    exec (.mtfe .bufA true) (loaded banana 0) = .next (after (exec (.mtfe .bufA true) (loaded banana 0))) ∧
      exec (.mtfd .bufA false) (loaded banana 0) = .next (after (exec (.mtfd .bufA false) (loaded banana 0))) :=
  ⟨exec_after _ _, exec_after _ _⟩

theorem witness_MtfeMatchesListRecoder : (loaded banana 0).len.toNat ≤ (loaded banana 0).cap.toNat ∧
    (loaded banana 0).tables.inverse := ⟨by decide +kernel, identity_inverse⟩

theorem witness_MtfdMatchesListRecoder : (loaded [66, 66, 78, 1, 1, 1] 0).len.toNat ≤ (loaded banana 0).cap.toNat ∧
    (loaded [66, 66, 78, 1, 1, 1] 0).tables.inverse := ⟨by decide +kernel, identity_inverse⟩

/-- The decoder is a fresh instance that was loaded with the encoder's output. -/
theorem witness_RoundTripMtf :
    (loaded [5, 4, 3] 0).len.toNat ≤ (loaded [5, 4, 3] 0).cap.toNat ∧ (loaded [5, 4, 3] 0).tables.inverse ∧
      (loaded [5, 5, 5] 0).len.toNat ≤ (loaded [5, 5, 5] 0).cap.toNat ∧
      startTables true (loaded [5, 5, 5] 0) = startTables false (loaded [5, 4, 3] 0) ∧
      (loaded [5, 5, 5] 0).block .bufA = (after (exec (.mtfe .bufA false) (loaded [5, 4, 3] 0))).block .bufB :=
  ⟨by decide +kernel, identity_inverse, by decide +kernel, rfl, by decide +kernel⟩

/-- The second piece of V10's first row, on the tables the first piece left. -/
def chained : State :=
  { loaded [66, 66, 65] 0 with tables := (after (exec (.mtfe .bufA false) (loaded [65, 65, 65] 0))).tables }

theorem chained_tables : chained.tables = (after (exec (.mtfe .bufA false) (loaded [65, 65, 65] 0))).tables := by
  rw [chained]

/-- V10's first row, for MTFE. -/
theorem witness_MtfChaining :
    (loaded [65, 65, 65, 66, 66, 65] 0).block .bufA = (loaded [65, 65, 65] 0).block .bufA ++ chained.block .bufA ∧
      exec (.mtfe .bufA false) (loaded [65, 65, 65] 0) =
        .next (after (exec (.mtfe .bufA false) (loaded [65, 65, 65] 0))) ∧
      chained.tables = (after (exec (.mtfe .bufA false) (loaded [65, 65, 65] 0))).tables ∧
      exec (.mtfe .bufA true) chained = .next (after (exec (.mtfe .bufA true) chained)) ∧
      (loaded [65, 65, 65, 66, 66, 65] 0).len.toNat ≤ State.reset.cap.toNat :=
  ⟨by decide +kernel, exec_after (.mtfe .bufA false) (loaded [65, 65, 65] 0), chained_tables,
    exec_after (.mtfe .bufA true) chained, by decide +kernel⟩

theorem witness_WireRecordReadsBack : ([0, 0, 3] : List Byte).length < 4 ∧ ([] : List Byte).length < 4 := by decide

/-- Each of the three commands, MTFE and MTFD with no byte too, BWTF with one. -/
theorem witness_WireStreamOfEachResult : (loaded [] 0).len.toNat ≤ (loaded [] 0).cap.toNat ∧
    1 ≤ (loaded [7] 0).len.toNat ∧ (loaded [7] 0).len.toNat ≤ (loaded [7] 0).cap.toNat ∧
    Instr.mtfe .bufA true ≠ .bwtf .bufA ∧ Instr.mtfd .bufA false ≠ .bwtf .bufA := by decide +kernel

/-- The second instance holds no more than the stream. -/
theorem witness_RecodedStreamDecodesElsewhere : (loaded banana 0).len.toNat ≤ (loaded banana 0).cap.toNat ∧
    (loaded banana 0).len.toNat ≤ (State.resetOf 6 0).cap.toNat ∧ (State.resetOf 6 0).inputs = [] := by decide +kernel

/-- The record of V16, and the operations that invert it on another instance. -/
theorem witness_HostInverseProgramRestores :
    1 ≤ (loaded abra 0).len.toNat ∧ (loaded abra 0).len.toNat ≤ (loaded abra 0).cap.toNat ∧
      (loaded abra 0).len.toNat ≤ (State.resetOf 12 0).cap.toNat := by decide +kernel

/-- COMPRESS and EXPAND with a first command that succeeds, and with one that fails. -/
theorem witness_PseudoInstructionStopsAtFirstError :
    exec (.bwtf .bufA) (loaded abra 0) = .next (after (exec (.bwtf .bufA) (loaded abra 0))) ∧
      (after (exec (.bwtf .bufA) (loaded abra 0))).err = 0 ∧ (after (exec (.bwtf .bufA) (loaded [] 0))).err ≠ 0 ∧
      exec (.mtfd .bufA false) (loaded abra 0) = .next (after (exec (.mtfd .bufA false) (loaded abra 0))) ∧
      (after (exec (.mtfd .bufA false) (loaded abra 0))).err = 0 ∧
      (after (exec (.mtfd .bufA false) { loaded abra 0 with len := 4097 })).err ≠ 0 :=
  ⟨exec_after _ _, by decide +kernel, by decide +kernel, exec_after _ _, by decide +kernel, by decide +kernel⟩

/-- "ABAB": the ranks COMPRESS leaves in BUFA, on a fresh instance with the same FIDX. -/
theorem witness_CompressThenExpandRestores :
    1 ≤ (loaded abab 0).len.toNat ∧ (loaded abab 0).len.toNat ≤ (loaded abab 0).cap.toNat ∧
      (loaded [66, 0, 66, 0] 0).fidx = (after (issueItem (.compress .bufA) (loaded abab 0))).fidx ∧
      (loaded [66, 0, 66, 0] 0).block .bufA = (after (issueItem (.compress .bufA) (loaded abab 0))).block .bufA := by
  decide +kernel

theorem witness_FirstCommandsAfterReset : (loaded [65, 65] 0).tables = MtfTables.identity := rfl

theorem witness_OnlyNamedCommandsWriteEachSpace :
    exec (.bwtf .bufA) (loaded abra 0) = .next (after (exec (.bwtf .bufA) (loaded abra 0))) ∧
      (after (exec (.bwtf .bufA) (loaded abra 0))).fidx ≠ (loaded abra 0).fidx := ⟨exec_after _ _, by decide +kernel⟩

theorem witness_TablesStayInverse : State.reset.tables.inverse ∧ event .reset State.reset = .next (resetEvent State.reset) :=
  ⟨identity_inverse, rfl⟩

/-- The least and the largest capacity. -/
theorem witness_ResetMeetsInvariant : 1 ≤ (1 : Word).toNat ∧ (1 : Word).toNat ≤ Config.nmaxBound ∧
    1 ≤ (0x7FFFFFFF : Word).toNat ∧ (0x7FFFFFFF : Word).toNat ≤ Config.nmaxBound := by decide

/-- A just loaded instance meets the invariant, whatever word the host is about to write to CMD. -/
theorem loaded_inv (w : Word) (bytes : List Byte) (fidx : Word) (h : bytes.length ≤ Config.nmax) :
    (issueWord w (loaded bytes fidx)).Inv :=
  have hb : (loaded bytes fidx).bufA.wf Config.nmax = true := Memory.wf_setFrom bytes (by omega) (Memory.wf_nil _)
  { capLow := Nat.le_of_ble_eq_true rfl
    capHigh := Nat.le_of_ble_eq_true rfl
    errLegal := Nat.zero_le 3
    bufAWf := hb
    bufBWf := Memory.wf_nil _
    ordWf := Memory.wf_nil _
    fcolWf := Memory.wf_nil _
    nxtWf := Memory.wf_nil _
    cntWf := Memory.wf_nil _
    headWf := Memory.wf_nil _
    stackWf := Memory.wf_nil _
    spZero := rfl
    tablesInverse := identity_inverse }

/-- A state that meets the invariant and holds a block, before the CMD write of `BWTF A`. -/
theorem witness_StepKeepsInvariant : (issueWord 0x02 (loaded abra 0)).Inv ∧
    step (issueWord 0x02 (loaded abra 0)) = .next (after (step (issueWord 0x02 (loaded abra 0)))) :=
  ⟨loaded_inv 0x02 abra 0 (by decide), step_after _ _ (by decide +kernel)⟩

/-- Two states that differ in NEXT and STACK. -/
theorem witness_ScratchDoesNotMatter :
    ({ loaded abra 0 with nxt := [(0, 5)], stack := [(0, ⟨1, 2, 3⟩)] } : State).noScratch = (loaded abra 0).noScratch ∧
      ({ loaded abra 0 with nxt := [(0, 5)], stack := [(0, ⟨1, 2, 3⟩)] } : State).nxt ≠ (loaded abra 0).nxt :=
  ⟨rfl, by decide +kernel⟩

/-- BWTF does not depend on FIDX, nor on the tables, nor on what DSTBUF held. -/
theorem witness_ResultsDependOnNamedInputs :
    (loaded abra 0).block .bufA = ({ loaded abra 9 with bufB := [(0, 1)] } : State).block .bufA ∧
      readsBuf (.bwtf .bufA) .bufA ∧ (∀ b, Instr.bwtf .bufA ≠ .bwti b) ∧
      exec (.bwtf .bufA) (loaded abra 0) = .next (after (exec (.bwtf .bufA) (loaded abra 0))) :=
  ⟨by decide +kernel, rfl, (fun _ h => by cases h), exec_after _ _⟩

end Sys2Proof.Tests
end

section
/-! Every step keeps the invariant `State.Inv`. One lemma for each kind of change an operation makes to the state,
then one for each operation, from the memory writes of a command up to the event a step takes. -/

namespace Sys2Proof.Machine

variable {s t : State}

/-! ### What the invariant asks of a change of the state -/

theorem Memory.wf_setFrom_zero {α : Type} {size : Nat} {m : Memory α} {vs : List α} (hl : vs.length ≤ size)
    (h : m.wf size = true) : (m.setFrom 0 vs).wf size = true :=
  Memory.wf_setFrom vs (by rwa [Nat.zero_add]) h

/-- The invariant speaks of no register the host writes and of no field of the model's own, so these may hold anything. -/
theorem State.Inv.withHostFields (h : s.Inv) (len fidx : Word) (resets : Nat) (inputs : List HostEvent)
    (replies : List Reply) :
    State.Inv { s with len := len, fidx := fidx, resets := resets, inputs := inputs, replies := replies } :=
  { h with }

theorem State.Inv.withErr (h : s.Inv) {e : BitVec 4} (he : e.toNat ≤ 3) : State.Inv { s with err := e } :=
  { h with errLegal := he }

theorem State.Inv.withTables (h : s.Inv) {u : MtfTables} (hu : u.inverse) : State.Inv { s with tables := u } :=
  { h with tablesInverse := hu }

theorem State.Inv.bufWf (h : s.Inv) (b : Buf) : (s.buf b).wf s.cap.toNat = true := by
  cases b with
  | bufA => exact h.bufAWf
  | bufB => exact h.bufBWf

theorem State.Inv.withBuf (h : s.Inv) (b : Buf) {m : Memory Byte} (hm : m.wf s.cap.toNat = true) :
    (s.withBuf b m).Inv := by
  cases b with
  | bufA => exact { h with bufAWf := hm }
  | bufB => exact { h with bufBWf := hm }

theorem State.Inv.writeBlock (h : s.Inv) (b : Buf) {bytes : List Byte} (hl : bytes.length ≤ s.cap.toNat) :
    (writeBlock s b bytes).Inv :=
  h.withBuf b (Memory.wf_setFrom_zero hl (h.bufWf b))

/-! ### The commands -/

theorem errorCode_le_three (e : CoreError) : (errorCode e).toNat ≤ 3 := by
  cases e <;> decide

/-- A block that fits the capacity needs no more than STKCAP stack entries (40_suffix_sorter.md R134). -/
theorem half_le_stkcap {n cap : Nat} (hn : n ≤ cap) : n / 2 ≤ Config.stkcap cap :=
  (Nat.div_le_div_right hn).trans (Nat.le_max_right _ _)

/-- SORT_MICRO ends with an order of n offsets, with SP = 0, and with STACK written below floor(n/2) only. -/
theorem runSorter_inv (h : s.Inv) (b : Buf) {n : Nat} (hn : n ≤ s.cap.toNat) : (runSorter b n s).Inv := by
  have hS : (readBlock s b n).length = n := readBlock_length s b n
  have h32 : (readBlock s b n).length < 2 ^ 32 := by
    rw [hS]
    exact hn.trans_lt s.cap.isLt
  obtain ⟨-, hsp, -, -, hstack⟩ := sortMicro_spec (readBlock s b n) s.resets s.stack h32
  exact { h with
    ordWf := Memory.wf_setFrom_zero (by rwa [toWords_length, sortMicro_ord_length _ _ h32, hS]) h.ordWf
    stackWf := hstack _ h.stackWf (by rw [hS]; exact half_le_stkcap hn)
    spZero := hsp }

theorem runForward_inv (h : s.Inv) (b : Buf) {n : Nat} (hn : n ≤ s.cap.toNat) : (runForward b n s).Inv := by
  have hS : (readBlock s b n).length = n := readBlock_length s b n
  have h32 : (readBlock s b n).length < 2 ^ 32 := by
    rw [hS]
    exact hn.trans_lt s.cap.isLt
  refine ((runSorter_inv h b hn).withHostFields _ _ _ _ _).writeBlock (dstOf b) ?_
  rwa [payloadLoop_bytes, List.length_map, sortMicro_ord_length _ _ h32, hS]

/-- BWTI_MICRO writes n elements of FCOL, NEXT and DSTBUF, and all 256 of CNT and HEAD. -/
theorem runInverse_inv (h : s.Inv) (b : Buf) {n : Nat} (fi : Nat) (hn : n ≤ s.cap.toNat) :
    (runInverse b n fi s).Inv := by
  have hS : (readBlock s b n).length = n := readBlock_length s b n
  unfold runInverse
  refine State.Inv.writeBlock ?_ (dstOf b) (by rwa [inverseMicro_out_length, hS])
  exact { h with
    cntWf := Memory.wf_setFrom_zero (by rw [toWords_length, inverseMicro_cnt_length, Config.alpha]) h.cntWf
    headWf := Memory.wf_setFrom_zero (by rw [toWords_length, inverseMicro_head_length, Config.alpha]) h.headWf
    fcolWf := Memory.wf_setFrom_zero (by rwa [inverseMicro_fcol_length, hS]) h.fcolWf
    nxtWf := Memory.wf_setFrom_zero (by rwa [toWords_length, inverseMicro_nxt_length, hS]) h.nxtWf }

theorem startTables_inverse (h : s.Inv) (c : Bool) : (startTables c s).inverse := by
  cases c with
  | false => exact identity_inverse
  | true => exact h.tablesInverse

theorem finishRecode_inv (h : s.Inv) (b : Buf) {r : List Byte × MtfTables} (hl : r.1.length ≤ s.cap.toNat)
    (hr : r.2.inverse) : (finishRecode b r s).Inv :=
  (h.withTables hr).writeBlock (dstOf b) hl

/-- What a successful command does to the state. Every command but NOP has checked LEN <= NMAX (60_exceptions.md R221). -/
theorem effectOf_inv (h : s.Inv) (i : Instr) (hfits : i ≠ .nop → s.len.toNat ≤ s.cap.toNat) : (effectOf i s).Inv := by
  cases i with
  | nop => exact h
  | sort b => exact runSorter_inv h b (hfits nofun)
  | bwtf b => exact runForward_inv h b (hfits nofun)
  | bwti b => exact runInverse_inv h b _ (hfits nofun)
  | mtfe b c =>
    exact finishRecode_inv h b (by simpa using hfits nofun) (encodeRun_inverse (startTables_inverse h c) _)
  | mtfd b c =>
    exact finishRecode_inv h b (by simpa using hfits nofun) (decodeRun_inverse (startTables_inverse h c) _)

theorem exec_keeps_inv (h : s.Inv) (i : Instr) (ht : exec i s = .next t) : t.Inv := by
  rcases exec_cases i s with ⟨e, he, hs⟩ | ⟨hs, hfits, -⟩
  · obtain rfl := Outcome_next_inj (hs.symm.trans ht)
    exact h.withErr (by rcases he with rfl | rfl <;> decide)
  · obtain rfl := Outcome_next_inj (hs.symm.trans ht)
    exact (effectOf_inv h i hfits).withErr (by decide)

theorem execWord_keeps_inv (h : s.Inv) (w : Word) (ht : execWord w s = .next t) : t.Inv := by
  unfold execWord at ht
  split at ht
  · obtain rfl := Outcome_next_inj ht
    exact h.withErr (errorCode_le_three .illegal)
  · exact exec_keeps_inv h _ ht

/-! ### The host's operations and reset -/

theorem regWrite_keeps_inv (h : s.Inv) (r : Nat) (v : Word) (ht : regWrite r v s = .next t) : t.Inv := by
  unfold regWrite at ht
  split at ht
  · exact execWord_keeps_inv h v ht
  all_goals obtain rfl := Outcome_next_inj ht
  · exact h.withHostFields v _ _ _ _
  · exact h.withHostFields _ v _ _ _
  · exact h

theorem hostBufWrite_inv (h : s.Inv) (b : Buf) (i : Nat) (v : Byte) : (hostBufWrite b i v s).Inv := by
  unfold hostBufWrite
  split
  case isTrue hi => exact h.withBuf b (Memory.wf_set v hi (h.bufWf b))
  case isFalse => exact h

theorem reply_inv (h : s.Inv) (v : Reply) : (reply v s).Inv := h.withHostFields _ _ _ _ _

theorem hostOp_keeps_inv (h : s.Inv) (o : HostOp) (ht : hostOp o s = .next t) : t.Inv := by
  cases o with
  | hwr r v => exact regWrite_keeps_inv h r v ht
  | hwb b i v => exact Outcome_next_inj ht ▸ hostBufWrite_inv h b i v
  | hrd r => exact Outcome_next_inj ht ▸ reply_inv h _
  | hrb b i => exact Outcome_next_inj ht ▸ reply_inv h _
  | hro i => exact Outcome_next_inj ht ▸ reply_inv h _

/-- The reset state meets the invariant whenever the capacity is admissible (00_scope.md R7). -/
theorem resetOf_inv {nmax : Word} (hlow : 1 ≤ nmax.toNat) (hhigh : nmax.toNat ≤ Config.nmaxBound) (gen : Nat) :
    (State.resetOf nmax gen).Inv where
  capLow := hlow
  capHigh := hhigh
  errLegal := Nat.zero_le 3
  bufAWf := Memory.wf_nil _
  bufBWf := Memory.wf_nil _
  ordWf := Memory.wf_nil _
  fcolWf := Memory.wf_nil _
  nxtWf := Memory.wf_nil _
  cntWf := Memory.wf_nil _
  headWf := Memory.wf_nil _
  stackWf := Memory.wf_nil _
  spZero := rfl
  tablesInverse := identity_inverse

theorem resetEvent_inv (h : s.Inv) : (resetEvent s).Inv :=
  (resetOf_inv h.capLow h.capHigh _).withHostFields _ _ _ _ _

theorem event_keeps_inv (h : s.Inv) (e : HostEvent) (ht : event e s = .next t) : t.Inv := by
  cases e with
  | op o => exact hostOp_keeps_inv h o ht
  | reset => exact Outcome_next_inj ht ▸ resetEvent_inv h

/-! ### The step -/

theorem step_keeps_inv (h : s.Inv) (ht : step s = .next t) : t.Inv := by
  unfold step takeEvent at ht
  split at ht
  · exact Outcome_next_inj ht ▸ h
  · exact event_keeps_inv (h.withHostFields _ _ _ _ _) _ ht

/-- Settles O58: taking the event from the inputs changes no field the invariant speaks of, and each host operation and
reset keeps it. -/
theorem stepKeepsInvariant : Obligations.StepKeepsInvariant :=
  fun _ _ => step_keeps_inv

end Sys2Proof.Machine
end

section
/-! What no program can observe: a command treats two states that differ in their scratch alone in the same way
(10_state.md R36). One rule for each way a command ends, one for each micro-sequence, then the six commands. -/

namespace Sys2Proof.Machine

/-! ### States that agree on everything but the scratch -/

/-- `s` with the scratch that `u` holds. -/
def State.withScratchOf (s u : State) : State :=
  { s with fcol := u.fcol, nxt := u.nxt, cnt := u.cnt, head := u.head, stack := u.stack, sp := u.sp }

theorem State.eq_withScratchOf {s u : State} (h : s.noScratch = u.noScratch) : u = s.withScratchOf u :=
  calc
    u = u.noScratch.withScratchOf u := rfl
    _ = s.noScratch.withScratchOf u := by rw [h]
    _ = s.withScratchOf u := rfl

@[simp] theorem State.withScratchOf_fidx (s u : State) : (s.withScratchOf u).fidx = s.fidx := rfl

@[simp] theorem readBlock_withScratchOf (s u : State) (b : Buf) (n : Nat) :
    readBlock (s.withScratchOf u) b n = readBlock s b n :=
  readBlock_congr fun _ _ => bufRead_eq_of_buf (State.buf_congr rfl rfl b) rfl _

@[simp] theorem startTables_withScratchOf (s u : State) (c : Bool) :
    startTables c (s.withScratchOf u) = startTables c s := rfl

theorem writeBlock_noScratch (s : State) (b : Buf) (bytes : List Byte) :
    (writeBlock s b bytes).noScratch = writeBlock s.noScratch b bytes := by
  cases b <;> rfl

/-! ### Outcomes that agree on everything but the scratch -/

/-- Both outcomes go on, to states that agree on everything but the scratch. -/
def SameButScratch (o o' : Host.Outcome State Fault Refusal) : Prop :=
  ∃ t t', o = .next t ∧ o' = .next t' ∧ t.noScratch = t'.noScratch

theorem complete_sameButScratch {t t' : State} (h : t.noScratch = t'.noScratch) :
    SameButScratch (complete t) (complete t') :=
  ⟨_, _, rfl, rfl, congrArg (fun v : State => { v with err := okCode }) h⟩

theorem raise_sameButScratch (e : CoreError) (s u : State) :
    SameButScratch (raise e s) (raise e (s.withScratchOf u)) :=
  ⟨_, _, rfl, rfl, rfl⟩

/-- The check of LEN takes the same branch in both states, since it reads LEN and CAP only. -/
theorem withBlockLength_sameButScratch {s u : State} {run run' : Nat → Host.Outcome State Fault Refusal}
    (hrun : SameButScratch (run s.len.toNat) (run' s.len.toNat)) :
    SameButScratch (withBlockLength s run) (withBlockLength (s.withScratchOf u) run') := by
  rcases Nat.lt_or_ge s.cap.toNat s.len.toNat with h | h
  · rw [withBlockLength_tooLong run h, withBlockLength_tooLong (s := s.withScratchOf u) run' h]
    exact raise_sameButScratch .validation s u
  · rwa [withBlockLength_fits run h, withBlockLength_fits (s := s.withScratchOf u) run' h]

/-! ### The micro-sequences -/

/-- SORT_MICRO orders the block the same way whatever STACK held before: there is one order only (40_suffix_sorter.md
R121, R131). -/
theorem runSorter_noScratch (s u : State) (b : Buf) {n : Nat} (h32 : n < 2 ^ 32) :
    (runSorter b n s).noScratch = (runSorter b n (s.withScratchOf u)).noScratch := by
  have hord := sortMicro_ord_congr (readBlock s b n) s.resets s.resets s.stack u.stack (by simpa using h32)
  simp only [runSorter, readBlock_withScratchOf, hord]
  rfl

theorem runForward_noScratch (s u : State) (b : Buf) {n : Nat} (h32 : n < 2 ^ 32) :
    (runForward b n s).noScratch = (runForward b n (s.withScratchOf u)).noScratch := by
  have hord := sortMicro_ord_congr (readBlock s b n) s.resets s.resets s.stack u.stack (by simpa using h32)
  simp only [runForward, writeBlock_noScratch, readBlock_withScratchOf, hord]
  exact congrArg (fun v : State => writeBlock { v with fidx := _ } _ _) (runSorter_noScratch s u b h32)

/-- BWTI_MICRO computes from the payload and FIDX alone (41_bwt_transformer.md R164). -/
theorem runInverse_noScratch (s u : State) (b : Buf) (n fi : Nat) :
    (runInverse b n fi s).noScratch = (runInverse b n fi (s.withScratchOf u)).noScratch := by
  simp only [runInverse, writeBlock_noScratch, readBlock_withScratchOf]
  rfl

theorem finishRecode_noScratch (s u : State) (b : Buf) (r : List Byte × MtfTables) :
    (finishRecode b r s).noScratch = (finishRecode b r (s.withScratchOf u)).noScratch := by
  simp only [finishRecode, writeBlock_noScratch]
  rfl

/-! ### The commands -/

/-- What MTFE and MTFD have in common, with `run` the recoding of a block (42_mtf_recoder.md R187, R188). -/
theorem recode_sameButScratch (s u : State) (run : MtfTables → List Byte → List Byte × MtfTables) (b : Buf)
    (c : Bool) :
    SameButScratch
      (withBlockLength s fun n => complete (finishRecode b (run (startTables c s) (readBlock s b n)) s))
      (withBlockLength (s.withScratchOf u) fun n => complete
        (finishRecode b (run (startTables c (s.withScratchOf u)) (readBlock (s.withScratchOf u) b n))
          (s.withScratchOf u))) := by
  apply withBlockLength_sameButScratch
  rw [startTables_withScratchOf, readBlock_withScratchOf]
  exact complete_sameButScratch (finishRecode_noScratch s u b _)

theorem exec_sameButScratch (s u : State) (i : Instr) : SameButScratch (exec i s) (exec i (s.withScratchOf u)) := by
  cases i with
  | nop => exact complete_sameButScratch rfl
  | sort b =>
    simp only [exec, execSort]
    apply withBlockLength_sameButScratch
    exact complete_sameButScratch (runSorter_noScratch s u b s.len.isLt)
  | bwtf b =>
    simp only [exec, execBwtf]
    apply withBlockLength_sameButScratch
    split
    · exact raise_sameButScratch .validation s u
    · exact complete_sameButScratch (runForward_noScratch s u b s.len.isLt)
  | bwti b =>
    simp only [exec, execBwti]
    apply withBlockLength_sameButScratch
    rw [State.withScratchOf_fidx]
    split
    · exact raise_sameButScratch .format s u
    · exact complete_sameButScratch (runInverse_noScratch s u b _ _)
  | mtfe b c => exact recode_sameButScratch s u encodeRun b c
  | mtfd b c => exact recode_sameButScratch s u decodeRun b c

/-- Settles O59: the checks, the blocks and the tables a command reads are no scratch, and SORT_MICRO's order does not
depend on what STACK held. -/
theorem scratchDoesNotMatter : Obligations.ScratchDoesNotMatter := by
  intro i s u h
  rw [State.eq_withScratchOf h]
  exact exec_sameButScratch s u i

end Sys2Proof.Machine
end

section
/-! Which part of the state a command or another event writes: the capacity and the other inputs of a command never, and
each other space in the commands that name it (10_state.md R24 to R26, R30 to R33). -/

namespace Sys2Proof.Machine

variable {s t : State}

/-! ### What a successful command writes -/

theorem effectOf_keepsInputs (i : Instr) (s : State) : KeepsInputs s (effectOf i s) := by
  cases i <;> simp [effectOf, KeepsInputs]

theorem effectOf_fidx_changed {i : Instr} (h : (effectOf i s).fidx ≠ s.fidx) : ∃ b, i = .bwtf b := by
  cases i with
  | bwtf b => exact ⟨b, rfl⟩
  | _ => exact absurd (by simp [effectOf]) h

theorem effectOf_ordRead_changed {i : Instr} {k : Nat} (h : ordRead (effectOf i s) k ≠ ordRead s k) :
    (∃ b, i = .sort b ∨ i = .bwtf b) ∧ k < s.len.toNat := by
  cases i with
  | sort b =>
    refine ⟨⟨b, .inl rfl⟩, ?_⟩
    by_contra hk
    exact h (ordRead_runSorter_ge b s s.len.isLt (Nat.le_of_not_lt hk))
  | bwtf b =>
    refine ⟨⟨b, .inr rfl⟩, ?_⟩
    by_contra hk
    refine h (Eq.trans (ordRead_eq_of_ord ?_ ?_ k) (ordRead_runSorter_ge b s s.len.isLt (Nat.le_of_not_lt hk)))
    · exact runForward_ord b _ s
    · exact runForward_resets b _ s
  | _ => exact absurd (ordRead_eq_of_ord (by simp [effectOf]) (by simp [effectOf]) k) h

theorem effectOf_tables_changed {i : Instr} (h : (effectOf i s).tables ≠ s.tables) :
    ∃ b c, i = .mtfe b c ∨ i = .mtfd b c := by
  cases i with
  | mtfe b c => exact ⟨b, c, .inl rfl⟩
  | mtfd b c => exact ⟨b, c, .inr rfl⟩
  | _ => exact absurd (by simp [effectOf]) h

/-- The frame of a command that leaves its source buffer alone and writes elements [0, n) of the other one only. -/
theorem dst_of_bufRead_changed {i : Instr} {b c : Buf} {n k : Nat} (hreads : readsBuf i b) (hi : i ≠ .sort b)
    (hr : t.resets = s.resets) (hsrc : t.buf b = s.buf b) (hdst : KeepsBufFrom n (dstOf b) s t)
    (h : bufRead t c k ≠ bufRead s c k) : (∃ b, readsBuf i b ∧ c = dstOf b ∧ i ≠ .sort b) ∧ k < n := by
  rcases eq_or_eq_dstOf b c with rfl | rfl
  · exact absurd (bufRead_eq_of_buf hsrc hr k) h
  · exact ⟨⟨b, hreads, rfl, hi⟩, Nat.lt_of_not_le fun hk => h (hdst k hk)⟩

theorem effectOf_bufRead_changed {i : Instr} {c : Buf} {k : Nat} (h : bufRead (effectOf i s) c k ≠ bufRead s c k) :
    (∃ b, readsBuf i b ∧ c = dstOf b ∧ i ≠ .sort b) ∧ k < s.len.toNat := by
  cases i with
  | nop => exact absurd rfl h
  | sort b => exact absurd (bufRead_eq_of_buf (runSorter_buf b c _ s) rfl k) h
  | bwtf b =>
    exact dst_of_bufRead_changed rfl nofun (runForward_resets b _ s) (runForward_src b _ s)
      (fun _ => bufRead_runForward_ge b s s.len.isLt) h
  | bwti b =>
    exact dst_of_bufRead_changed rfl nofun (runInverse_resets b _ _ s) (runInverse_src b _ _ s)
      (fun _ => bufRead_runInverse_ge b _ _ s) h
  | mtfe b m =>
    exact dst_of_bufRead_changed rfl nofun (finishRecode_resets b _ s) (finishRecode_src b _ s)
      (fun _ hj => bufRead_finishRecode_ge b _ s (by simpa using hj)) h
  | mtfd b m =>
    exact dst_of_bufRead_changed rfl nofun (finishRecode_resets b _ s) (finishRecode_src b _ s)
      (fun _ hj => bufRead_finishRecode_ge b _ s (by simpa using hj)) h

/-! ### Every command -/

/-- Settles O55: a failed command writes STATUS.ERR only, and a successful one what `effectOf` writes. -/
theorem onlyNamedCommandsWriteEachSpace : Obligations.OnlyNamedCommandsWriteEachSpace := by
  intro i s t ht
  rcases exec_cases i s with ⟨e, -, hs⟩ | ⟨hs, -, -⟩
  · obtain rfl := Outcome_next_inj (hs.symm.trans ht)
    exact ⟨⟨rfl, rfl, rfl, rfl, rfl⟩, fun h => absurd rfl h, fun _ h => absurd rfl h, fun h => absurd rfl h,
      fun c k h => absurd (bufRead_with_err s e c k) h⟩
  · obtain rfl := Outcome_next_inj (hs.symm.trans ht)
    refine ⟨effectOf_keepsInputs i s, fun h => ⟨effectOf_fidx_changed h, rfl⟩, fun k h => ?_,
      fun h => ⟨effectOf_tables_changed h, rfl⟩, fun c k h => ?_⟩
    · obtain ⟨hi, hk⟩ := effectOf_ordRead_changed h
      exact ⟨hi, rfl, hk⟩
    · obtain ⟨hi, hk⟩ := effectOf_bufRead_changed (bufRead_with_err (effectOf i s) 0 c k ▸ h)
      exact ⟨hi, rfl, hk⟩

theorem exec_keeps_cap {i : Instr} (ht : exec i s = .next t) : t.cap = s.cap := by
  obtain ⟨⟨-, hcap, -⟩, -⟩ := onlyNamedCommandsWriteEachSpace i s t ht
  exact hcap

/-- `startTables_inverse`, from the one field of the invariant it needs. -/
theorem startTables_inverse_of_tables (h : s.tables.inverse) (c : Bool) : (startTables c s).inverse := by
  cases c with
  | false => exact identity_inverse
  | true => exact h

theorem effectOf_tables_inverse (h : s.tables.inverse) (i : Instr) : (effectOf i s).tables.inverse := by
  cases i with
  | mtfe b c => simpa [effectOf] using encodeRun_inverse (startTables_inverse_of_tables h c) _
  | mtfd b c => simpa [effectOf] using decodeRun_inverse (startTables_inverse_of_tables h c) _
  | _ => simpa [effectOf] using h

theorem exec_keeps_tables_inverse (h : s.tables.inverse) {i : Instr} (ht : exec i s = .next t) : t.tables.inverse := by
  rcases exec_cases i s with ⟨e, -, hs⟩ | ⟨hs, -, -⟩
  · obtain rfl := Outcome_next_inj (hs.symm.trans ht)
    exact h
  · obtain rfl := Outcome_next_inj (hs.symm.trans ht)
    exact effectOf_tables_inverse h i

/-! ### Every event -/

@[simp] theorem hostBufWrite_cap (b : Buf) (i : Nat) (v : Byte) (s : State) :
    (hostBufWrite b i v s).cap = s.cap := by
  unfold hostBufWrite
  split <;> simp

@[simp] theorem hostBufWrite_tables (b : Buf) (i : Nat) (v : Byte) (s : State) :
    (hostBufWrite b i v s).tables = s.tables := by
  unfold hostBufWrite
  split <;> simp

/-- What an event can do to CAP and to the MTF tables: it runs a command, or it is a reset, or it leaves both alone. -/
theorem event_cases {e : HostEvent} (ht : event e s = .next t) :
    (∃ i, exec i s = .next t) ∨ t = resetEvent s ∨ (t.cap = s.cap ∧ t.tables = s.tables) := by
  have hsame {u : State} (hu : Host.Outcome.next u = (.next t : Host.Outcome State Fault Refusal))
      (hcap : u.cap = s.cap) (htables : u.tables = s.tables) : t.cap = s.cap ∧ t.tables = s.tables :=
    Outcome_next_inj hu ▸ ⟨hcap, htables⟩
  cases e with
  | reset => exact .inr (.inl (Outcome_next_inj ht).symm)
  | op o =>
    cases o with
    | hwr r v =>
      simp only [event, hostOp, regWrite, execWord] at ht
      split at ht
      · split at ht
        · exact .inr (.inr (hsame ht rfl rfl))
        · exact .inl ⟨_, ht⟩
      all_goals exact .inr (.inr (hsame ht rfl rfl))
    | hwb b i v =>
      exact .inr (.inr (hsame ht (hostBufWrite_cap b i v s) (hostBufWrite_tables b i v s)))
    | _ => exact .inr (.inr (hsame ht rfl rfl))

theorem event_keeps_cap {e : HostEvent} (ht : event e s = .next t) : t.cap = s.cap := by
  rcases event_cases ht with ⟨i, hi⟩ | rfl | ⟨hcap, -⟩
  · exact exec_keeps_cap hi
  · rfl
  · exact hcap

theorem event_keeps_tables_inverse (h : s.tables.inverse) {e : HostEvent} (ht : event e s = .next t) :
    t.tables.inverse := by
  rcases event_cases ht with ⟨i, hi⟩ | rfl | ⟨-, htables⟩
  · exact exec_keeps_tables_inverse h hi
  · exact identity_inverse
  · rwa [htables]

/-- Settles O12: CAP is one of the inputs no command writes, and the reset event takes it over. -/
theorem capacityIsHardwired : Obligations.CapacityIsHardwired :=
  ⟨fun _ => rfl, fun _ _ => rfl, fun _ _ => rfl, fun _ _ _ => event_keeps_cap⟩

/-- Settles O56: reset gives the identity tables, and a recoder run keeps tables mutually inverse from whichever tables it
starts. -/
theorem tablesStayInverse : Obligations.TablesStayInverse :=
  ⟨fun _ _ => identity_inverse, fun _ _ _ h => event_keeps_tables_inverse h⟩

/-! ### The step and reset -/

theorem step_of_cmd_write {w : Word} {i : Instr} {rest : List HostEvent} (hw : decode w = .ok i)
    (hs : s.inputs = .op (.hwr 0 w) :: rest) : step s = exec i { s with inputs := rest } := by
  simp only [step, takeEvent, hs, event, hostOp, regWrite, execWord, hw]

/-- Settles O4: the step takes the CMD write from the inputs and executes the decoded word, and `withFetchWord` puts
exactly such a write in front of the inputs. -/
theorem stepRunsDecodedCommand : Obligations.StepRunsDecodedCommand := by
  refine ⟨fun _ _ _ _ => step_of_cmd_write, fun w i s hlt hw => ?_⟩
  rw [State.withFetchWord, Nat.mod_eq_of_lt hlt]
  exact step_of_cmd_write (s := issueWord _ s) hw rfl

/-- Settles O57: `State.reset` is the reset state of capacity 4096, which is admissible. -/
theorem resetMeetsInvariant : Obligations.ResetMeetsInvariant :=
  ⟨fun _ gen hlow hhigh => resetOf_inv hlow hhigh gen, resetOf_inv (by decide) (by decide) 0⟩

end Sys2Proof.Machine
end

section
/-! What a host script does when it runs: one operation at a time (20_memory.md R73), a write line puts its bytes into
the buffer, a read line hands them to the host. Then the byte order of the wire header (20_memory.md R64). -/

namespace Sys2Proof.Machine

variable {s t : State}

/-! ### One operation of a run -/

theorem step_of_op {o : HostOp} {rest : List HostEvent} (hs : s.inputs = .op o :: rest) :
    step s = hostOp o { s with inputs := rest } := by
  simp only [step, takeEvent, hs, event]

/-- A run performs the next host operation whole and goes on from the state it left. -/
theorem run_of_op {o : HostOp} {rest : List HostEvent} (hs : s.inputs = .op o :: rest)
    (ho : hostOp o { s with inputs := rest } = .next t) (k : Nat) :
    Host.Core.run core (k + 1) s = Host.Core.run core k t := by
  have hstep : core.step s = .next t := (step_of_op hs).trans ho
  simp only [Host.Core.run, hstep]

/-! ### A write line -/

theorem hostOp_hwb_of_lt {i : Nat} (b : Buf) (v : Byte) (h : i < s.cap.toNat) :
    hostOp (.hwb b i v) s = .next (s.withBuf b ((s.buf b).set i v)) :=
  congrArg Host.Outcome.next (if_pos h)

theorem scriptOps_WB_cons (b : Buf) (i : Nat) (v : Byte) (vs : List Byte) :
    scriptOps (.WB b i (v :: vs)) = .hwb b i v :: scriptOps (.WB b (i + 1) vs) := by
  simp only [scriptOps, List.zipIdx_cons', List.map_cons, List.map_map, Function.comp_def, Prod.map, id,
    Nat.add_zero, Nat.add_right_comm i, Nat.add_assoc]

theorem loadScript_WB_cons_inputs (b : Buf) (i : Nat) (v : Byte) (vs : List Byte) (lines : List ScriptLine)
    (s : State) : (loadScript (.WB b i (v :: vs) :: lines) s).inputs =
      .op (.hwb b i v) :: (loadScript (.WB b (i + 1) vs :: lines) s).inputs := by
  simp [loadScript, scriptOps_WB_cons]

/-- A write line that fits writes its bytes to consecutive elements, and nothing else. -/
theorem run_loadScript_WB {b : Buf} {i : Nat} {bytes : List Byte} (hfit : i + bytes.length ≤ s.cap.toNat)
    (lines : List ScriptLine) (k : Nat) :
    Host.Core.run core (bytes.length + k) (loadScript (.WB b i bytes :: lines) s) =
      Host.Core.run core k (loadScript lines (s.withBuf b ((s.buf b).setFrom i bytes))) := by
  induction bytes generalizing i s with
  | nil =>
    rw [List.length_nil, Nat.zero_add]
    cases b <;> rfl
  | cons v vs ih =>
    rw [List.length_cons] at hfit ⊢
    have hi : i < s.cap.toNat := by omega
    have hhead := run_of_op (loadScript_WB_cons_inputs b i v vs lines s) (hostOp_hwb_of_lt b v hi) (vs.length + k)
    have htail := ih (s := s.withBuf b ((s.buf b).set i v)) (i := i + 1) (by rw [State.withBuf_cap]; omega)
    rw [Nat.add_right_comm, hhead]
    cases b <;> exact htail

/-! ### A read line -/

theorem scriptOps_RB_succ (b : Buf) (i n : Nat) :
    scriptOps (.RB b i (n + 1)) = .hrb b i :: scriptOps (.RB b (i + 1) n) := by
  simp only [scriptOps, List.range_succ_eq_map, List.map_cons, List.map_map, Function.comp_def, Nat.add_zero,
    Nat.succ_eq_add_one, Nat.add_right_comm i, Nat.add_assoc]

theorem loadScript_RB_succ_inputs (b : Buf) (i n : Nat) (lines : List ScriptLine) (s : State) :
    (loadScript (.RB b i (n + 1) :: lines) s).inputs =
      .op (.hrb b i) :: (loadScript (.RB b (i + 1) n :: lines) s).inputs := by
  simp [loadScript, scriptOps_RB_succ]

/-- A read line hands consecutive elements to the host in order, and changes nothing else. -/
theorem run_loadScript_RB (b : Buf) (i n : Nat) (lines : List ScriptLine) (s : State) (k : Nat) :
    Host.Core.run core (n + k) (loadScript (.RB b i n :: lines) s) =
      Host.Core.run core k (loadScript lines
        { s with replies := s.replies ++ ((List.range' i n).map (hostBufRead s b)).map .byte }) := by
  induction n generalizing i s with
  | zero =>
    rw [Nat.zero_add, List.range'_zero, List.map_nil, List.map_nil, List.append_nil]
    rfl
  | succ n ih =>
    have hhead := run_of_op (loadScript_RB_succ_inputs b i n lines s) rfl (n + k)
    have htail := ih (i + 1) (reply (.byte (hostBufRead s b i)) s)
    rw [Nat.add_right_comm, List.range'_succ, List.map_cons, List.map_cons, List.append_cons]
    exact hhead.trans htail

/-! ### Write, then read back -/

/-- Reading the elements a block was written to returns its bytes, wherever in the buffer it stands. -/
theorem map_hostBufRead_of_setFrom {m : Memory Byte} {b : Buf} {i : Nat} {bytes : List Byte}
    (hfit : i + bytes.length ≤ s.cap.toNat) (hb : s.buf b = m.setFrom i bytes) :
    (List.range' i bytes.length).map (hostBufRead s b) = bytes := by
  refine List.ext_getElem (by simp) fun j _ hj => ?_
  have hlt : i + j < i + bytes.length := Nat.add_lt_add_left hj i
  have hread : hostBufRead s b (i + j) = bufRead s b (i + j) := if_pos (hlt.trans_le hfit)
  simp [hread, bufRead, byteRead, hb, Memory.get?_setFrom, hlt]

/-- Settles O10: the write line leaves the bytes in the buffer, and the read line replies with what the buffer holds. -/
theorem writtenBytesReadBack : Obligations.WrittenBytesReadBack := by
  intro b i bytes s hfit hin
  have hback := map_hostBufRead_of_setFrom (s := s.withBuf b ((s.buf b).setFrom i bytes)) (b := b)
    (by rwa [State.withBuf_cap]) (State.withBuf_buf_same s b _)
  have hwrite := run_loadScript_WB (b := b) hfit [.RB b i bytes.length] bytes.length
  have hread := run_loadScript_RB b i bytes.length [] (s.withBuf b ((s.buf b).setFrom i bytes)) 0
  rw [hback] at hread
  rw [two_mul]
  refine ⟨_, hwrite.trans hread, ?_, ?_⟩
  · exact congrArg (· ++ bytes.map Reply.byte) (State.withBuf_replies s b _)
  · exact (State.withBuf_inputs s b _).trans hin

/-! ### The wire header -/

/-- Settles O45: the two orders are the same four bytes, from the most and from the least significant. -/
theorem wireHeaderByteOrder : Obligations.WireHeaderByteOrder :=
  ⟨rfl, fun _ => ⟨rfl, rfl⟩⟩

end Sys2Proof.Machine
end

section
/-! The word of a command and the command of a word (30_encoding.md R90 to R101). The fields of a word determine it, and
`decodeFields` accepts exactly the fields of the commands, so `decode` and `encode` are inverse to each other; the legal
words are then the words of the commands. -/

namespace Sys2Proof

/-! ### The fields of a word -/

/-- The four fields cover all 32 bits of a word (R90). -/
theorem fieldsOf_injective {w v : Word} (h : fieldsOf w = fieldsOf v) : w = v := by
  obtain ⟨hop, hsrc, hcont, hzero⟩ := Fields.mk.inj h
  refine BitVec.eq_of_getLsbD_eq fun k hk => ?_
  have hlow := congrArg (BitVec.getLsbD · k) hop
  have hhigh := congrArg (BitVec.getLsbD · (k - 6)) hzero
  simp only [BitVec.getLsbD_extractLsb'] at hlow hhigh
  obtain hk4 | rfl | rfl | hk6 : k < 4 ∨ k = 4 ∨ k = 5 ∨ 6 ≤ k := by omega
  · simpa [hk4] using hlow
  · exact hsrc
  · exact hcont
  · simpa [show k - 6 < 26 by omega, Nat.add_sub_cancel' hk6] using hhigh

@[simp] theorem srcBit_bufOfBit (x : Bool) : srcBit (bufOfBit x) = x := by cases x <;> rfl

@[simp] theorem bufOfBit_srcBit (b : Buf) : bufOfBit (srcBit b) = b := by cases b <;> rfl

/-! ### Decoding fields -/

theorem decodeFields_fields (i : Instr) : decodeFields i.fields = .ok i := by
  cases i <;> simp [decodeFields, Instr.fields]

/-- Fields that decode are those of the command: every accepting branch of R101 has checked all that is not an operand. -/
theorem fields_of_decodeFields {f : Fields} {i : Instr} (h : decodeFields f = .ok i) : i.fields = f := by
  obtain ⟨op, src, cont, zero⟩ := f
  unfold decodeFields at h
  split_ifs at h <;> cases h
  all_goals simp_all [Instr.fields]

/-! ### Decode and encode -/

/-- Every command's word carries the command's fields, and they are legal: the laws of the six constructors together. -/
theorem encodesLegal (i : Instr) : Laws.EncodesLegal.Statement i := by
  cases i with
  | nop => exact Laws.EncodesLegal.nop
  | sort b => exact Laws.EncodesLegal.sort b
  | bwtf b => exact Laws.EncodesLegal.bwtf b
  | bwti b => exact Laws.EncodesLegal.bwti b
  | mtfe b c => exact Laws.EncodesLegal.mtfe b c
  | mtfd b c => exact Laws.EncodesLegal.mtfd b c

theorem Instr.wellFormed_eq_true (i : Instr) : i.WellFormed = true := (encodesLegal i).1

theorem fieldsOf_encode (i : Instr) : fieldsOf (encode i) = i.fields := (encodesLegal i).2

@[simp] theorem decode_encode (i : Instr) : decode (encode i) = .ok i := by
  rw [decode, fieldsOf_encode, decodeFields_fields]

theorem encode_of_decode {w : Word} {i : Instr} (h : decode w = .ok i) : encode i = w :=
  fieldsOf_injective ((fieldsOf_encode i).trans (fields_of_decodeFields h))

theorem decode_eq_ok_iff {w : Word} {i : Instr} : decode w = .ok i ↔ encode i = w :=
  ⟨encode_of_decode, fun h => h ▸ decode_encode i⟩

/-- Settles O3: a command's word carries its fields, a word's fields determine it, and only the fields of a command
decode. -/
theorem decodeAndEncodeAgree : Obligations.DecodeAndEncodeAgree :=
  ⟨fun i _ => decode_encode i, fun _ i h => ⟨encode_of_decode h, i.wellFormed_eq_true⟩⟩

/-! ### The legal words -/

/-- The fifteen commands, in the order of R96's table. -/
def legalCommands : List Instr :=
  [.nop, .sort .bufA, .sort .bufB, .bwtf .bufA, .bwtf .bufB, .bwti .bufA, .bwti .bufB, .mtfe .bufA false,
    .mtfe .bufB false, .mtfe .bufA true, .mtfe .bufB true, .mtfd .bufA false, .mtfd .bufB false, .mtfd .bufA true,
    .mtfd .bufB true]

theorem mem_legalCommands (i : Instr) : i ∈ legalCommands := by
  cases i with
  | nop => decide
  | sort b | bwtf b | bwti b => cases b <;> decide
  | mtfe b c | mtfd b c => cases b <;> cases c <;> decide

theorem legalWords_eq_map_encode : legalWords = legalCommands.map encode := by decide

theorem mem_legalWords_iff {w : Word} : w ∈ legalWords ↔ ∃ i, encode i = w := by
  simp [legalWords_eq_map_encode, mem_legalCommands]

/-- Settles O2: the legal words are the words of the fifteen commands, row by row. -/
theorem decodeAcceptsExactlyTheLegalWords : Obligations.DecodeAcceptsExactlyTheLegalWords := by
  refine ⟨fun w => ?_, ?_⟩
  · calc (∃ i, decode w = .ok i) ↔ ∃ i, encode i = w := exists_congr fun _ => decode_eq_ok_iff
      _ ↔ w ∈ legalWords := mem_legalWords_iff.symm
  · calc legalWords.map decode = legalCommands.map .ok := by
          simp only [legalWords_eq_map_encode, List.map_map, Function.comp_def, decode_encode]
      _ = _ := rfl

/-- Settles O1: the six legal words are those of their commands, and each illegal one reaches the branch of its reason. -/
theorem sampleWordsDecode : Obligations.SampleWordsDecode := by
  refine ⟨decode_encode .nop, decode_encode (.sort .bufB), decode_encode (.bwtf .bufA), decode_encode (.bwti .bufB),
    decode_encode (.mtfe .bufA true), decode_encode (.mtfd .bufB false), ?_⟩
  decide

end Sys2Proof
end

section
/-! What the host writes: the assembler's lines and the pseudo-instructions (30_encoding.md R102, R103). -/

namespace Sys2Proof.Machine

/-! ### Assembler lines -/

/-- The words a line assembles to. -/
def wordsOfItems (items : List AsmItem) : List Word := (items.flatMap expansion).map encode

@[simp] theorem wordsOfItems_command (i : Instr) : wordsOfItems [.command i] = [encode i] := rfl

@[simp] theorem wordsOfItems_compress (b : Buf) :
    wordsOfItems [.compress b] = [encode (.bwtf b), encode (.mtfe (dstOf b) false)] := rfl

@[simp] theorem wordsOfItems_expand (b : Buf) :
    wordsOfItems [.expand b] = [encode (.mtfd b false), encode (.bwti (dstOf b))] := rfl

/-- The fifteen lines of R102, in the order of R96's table, each name their command. -/
theorem assembleLine_legalLines :
    (["NOP", "SORT A", "SORT B", "BWTF A", "BWTF B", "BWTI A", "BWTI B", "MTFE A", "MTFE B", "MTFE A, C", "MTFE B, C",
      "MTFD A", "MTFD B", "MTFD A, C", "MTFD B, C"].map fun line => assembleLine line.toList) =
      legalCommands.map fun i => some [.command i] := by
  decide

theorem assembleLine_compress : assembleLine "COMPRESS A".toList = some [.compress .bufA] := by decide

theorem assembleLine_expand : assembleLine "EXPAND A ; inverse".toList = some [.expand .bufA] := by decide

/-- Settles O50: each line names its command, and R96 lists the commands' words. -/
theorem assemblerAssemblesTheLegalLines : Obligations.AssemblerAssemblesTheLegalLines := by
  refine ⟨?_, ?_, ?_⟩
  · have hlines := congrArg (List.map (Option.map wordsOfItems)) assembleLine_legalLines
    rw [List.map_map, List.map_map] at hlines
    rwa [legalWords_eq_map_encode, List.map_map]
  · rw [assembleLine_compress]
    exact congrArg some (wordsOfItems_compress .bufA)
  · rw [assembleLine_expand]
    exact congrArg some (wordsOfItems_expand .bufA)

/-! ### Pseudo-instructions -/

variable {i : Instr} {is : List Instr} {s t : State}

theorem issueCommands_cons_of_error (ht : exec i s = .next t) (h : t.err ≠ 0) :
    issueCommands (i :: is) s = .next t := by
  simp only [issueCommands, ht]
  exact if_neg h

theorem issueCommands_cons_of_ok (ht : exec i s = .next t) (h : t.err = 0) :
    issueCommands (i :: is) s = issueCommands is t := by
  simp only [issueCommands, ht]
  exact if_pos h

/-- With no command behind it, a command's own outcome is the outcome of the line. -/
theorem issueCommands_singleton (i : Instr) (s : State) : issueCommands [i] s = exec i s := by
  rw [issueCommands]
  cases exec i s with
  | next t => exact ite_self _
  | fault f => rfl
  | refused r => rfl

/-- A line of two commands: the first one's error ends it, and its success leaves the outcome to the second. -/
theorem issueCommands_pair {j : Instr} (ht : exec i s = .next t) :
    (t.err ≠ 0 → issueCommands [i, j] s = .next t) ∧ (t.err = 0 → issueCommands [i, j] s = exec j t) :=
  ⟨issueCommands_cons_of_error ht,
    fun h => (issueCommands_cons_of_ok ht h).trans (issueCommands_singleton j t)⟩

/-- Settles O51: COMPRESS and EXPAND are lines of two commands. -/
theorem pseudoInstructionStopsAtFirstError : Obligations.PseudoInstructionStopsAtFirstError :=
  fun _ _ _ => ⟨issueCommands_pair, issueCommands_pair⟩

end Sys2Proof.Machine
end

section
/-! What a command's outcome depends on (30_encoding.md R99, 60_exceptions.md R240). First the code it ends with, which
is that of the checks in the order of 60_exceptions.md R225; then each output of a command that succeeds, as a function
of the block, FIDX and the tables the command starts from. -/

namespace Sys2Proof.Machine

variable {i : Instr} {b : Buf} {s s' t : State}

/-! ### The checks of each command, in the order of R225 -/

theorem priorityCode_sort (b : Buf) (s : State) :
    priorityCode (encode (.sort b)) s = if s.cap.toNat < s.len.toNat then 1 else 0 := by
  cases b <;> rfl

theorem priorityCode_bwtf (b : Buf) (s : State) :
    priorityCode (encode (.bwtf b)) s =
      if s.cap.toNat < s.len.toNat then 1 else if s.len.toNat = 0 then 1 else 0 := by
  cases b <;> simp [priorityCode, encode, opOf, srcOf, contOf, legalWords, BitVec.toNat_eq]

theorem priorityCode_bwti (b : Buf) (s : State) :
    priorityCode (encode (.bwti b)) s =
      if s.cap.toNat < s.len.toNat then 1 else if s.len.toNat ≤ s.fidx.toNat then 2 else 0 := by
  cases b <;> simp [priorityCode, encode, opOf, srcOf, contOf, legalWords]

theorem priorityCode_mtfe (b : Buf) (c : Bool) (s : State) :
    priorityCode (encode (.mtfe b c)) s = if s.cap.toNat < s.len.toNat then 1 else 0 := by
  cases b <;> cases c <;> rfl

theorem priorityCode_mtfd (b : Buf) (c : Bool) (s : State) :
    priorityCode (encode (.mtfd b c)) s = if s.cap.toNat < s.len.toNat then 1 else 0 := by
  cases b <;> cases c <;> rfl

theorem priorityCode_tooLong (hi : i ≠ .nop) (h : s.cap.toNat < s.len.toNat) : priorityCode (encode i) s = 1 := by
  cases i with
  | nop => exact absurd rfl hi
  | _ =>
    simp only [priorityCode_sort, priorityCode_bwtf, priorityCode_bwti, priorityCode_mtfe, priorityCode_mtfd]
    exact if_pos h

/-! ### The code a command ends with -/

/-- The code is that of the first check that fails, and 0 when none does. -/
theorem exec_priorityCode (i : Instr) (s : State) : ∃ t, exec i s = .next t ∧ t.err = priorityCode (encode i) s := by
  by_cases hi : i = .nop
  · exact hi ▸ ⟨_, exec_nop s, rfl⟩
  rcases Nat.lt_or_ge s.cap.toNat s.len.toNat with h | h
  · exact ⟨_, exec_tooLong i hi h, (priorityCode_tooLong hi h).symm⟩
  have hlong : ¬ s.cap.toNat < s.len.toNat := Nat.not_lt.mpr h
  cases i with
  | nop => exact absurd rfl hi
  | sort b => exact ⟨_, exec_sort_fits b h, by simp [priorityCode_sort, hlong]⟩
  | bwtf b =>
    by_cases h0 : s.len.toNat = 0
    · exact ⟨_, exec_bwtf_empty b h0, by simp [priorityCode_bwtf, h0]⟩
    · exact ⟨_, exec_bwtf_fits b h (Nat.pos_of_ne_zero h0), by simp [priorityCode_bwtf, hlong, h0]⟩
  | bwti b =>
    rcases Nat.lt_or_ge s.fidx.toNat s.len.toNat with hf | hf
    · exact ⟨_, exec_bwti_fits b h hf, by simp [priorityCode_bwti, hlong, Nat.not_le.mpr hf]⟩
    · exact ⟨_, exec_bwti_format b h hf, by simp [priorityCode_bwti, hlong, hf]⟩
  | mtfe b c => exact ⟨_, exec_mtfe_fits b c h, by simp [priorityCode_mtfe, hlong]⟩
  | mtfd b c => exact ⟨_, exec_mtfd_fits b c h, by simp [priorityCode_mtfd, hlong]⟩

theorem err_of_exec (ht : exec i s = .next t) : t.err = priorityCode (encode i) s := by
  obtain ⟨u, hu, herr⟩ := exec_priorityCode i s
  rwa [Outcome_next_inj (hu.symm.trans ht)] at herr

/-- The checks read LEN and CAP, NOP has none, and only BWTI's reads FIDX. -/
theorem priorityCode_congr (hlen : i ≠ .nop → s.len = s'.len ∧ s.cap = s'.cap)
    (hfidx : ∀ b, i = .bwti b → s.fidx = s'.fidx) : priorityCode (encode i) s = priorityCode (encode i) s' := by
  cases i with
  | nop => rfl
  | bwti b =>
    obtain ⟨hl, hc⟩ := hlen nofun
    simp only [priorityCode_bwti, hl, hc, hfidx b rfl]
  | _ =>
    obtain ⟨hl, hc⟩ := hlen nofun
    simp only [priorityCode_sort, priorityCode_bwtf, priorityCode_mtfe, priorityCode_mtfd, hl, hc]

/-! ### The outputs of a command that succeeds -/

theorem eq_effectOf_of_exec (ht : exec i s = .next t) (h : t.err = 0) : t = { effectOf i s with err := 0 } := by
  rcases exec_cases i s with ⟨e, he, hs⟩ | ⟨hs, -, -⟩
  · obtain rfl := Outcome_next_inj (hs.symm.trans ht)
    rcases he with rfl | rfl <;> cases h
  · exact (Outcome_next_inj (hs.symm.trans ht)).symm

/-- After a successful command, `block` reads as many elements as the command's own block had. -/
theorem block_effectOf (i : Instr) (s : State) (c : Buf) :
    State.block { effectOf i s with err := 0 } c = readBlock (effectOf i s) c s.len.toNat := by
  obtain ⟨hlen, -⟩ := effectOf_keepsInputs i s
  rw [State.block, readBlock_with_err, hlen]

theorem len_toNat_eq_of_block (h : s.block b = s'.block b) : s.len.toNat = s'.len.toNat := by
  simpa [State.block] using congrArg List.length h

theorem order_effectOf_isOrder (hi : i = .sort b ∨ i = .bwtf b) (s : State) :
    IsOrder (s.block b) ((effectOf i s).order s.len.toNat) := by
  rcases hi with rfl | rfl
  · exact runSorter_isOrder b s s.len.isLt
  · exact runForward_isOrder b s s.len.isLt

/-- The block has one order only, so SORT and BWTF leave the same one from every state (40_suffix_sorter.md R121). -/
theorem order_effectOf_congr (hi : i = .sort b ∨ i = .bwtf b) (hblock : s.block b = s'.block b) :
    (effectOf i s).order s.len.toNat = (effectOf i s').order s'.len.toNat :=
  (order_effectOf_isOrder hi s).unique (hblock ▸ order_effectOf_isOrder hi s')

/-- BWTF's FIDX and payload are read off the order (41_bwt_transformer.md R152). -/
theorem fidx_runForward_eq (b : Buf) {n : Nat} (s : State) (h32 : n < 2 ^ 32) :
    (runForward b n s).fidx =
      BitVec.ofNat 32 (payloadLoop (readBlock s b n) 0 0 ((runForward b n s).order n)).1 := by
  rw [order_runForward, order_runSorter b s h32]
  simp [runForward]

theorem fidx_effectOf_congr (hblock : s.block b = s'.block b) :
    (effectOf (.bwtf b) s).fidx = (effectOf (.bwtf b) s').fidx := by
  have horder := order_effectOf_congr (.inr rfl) hblock
  simp only [effectOf, State.block] at hblock horder ⊢
  rw [fidx_runForward_eq b s s.len.isLt, fidx_runForward_eq b s' s'.len.isLt, hblock, horder]

theorem startTables_congr {c : Bool} (h : c = true → s.tables = s'.tables) : startTables c s = startTables c s' := by
  cases c with
  | false => rfl
  | true => exact h rfl

theorem dst_effectOf_congr (hreads : readsBuf i b) (hi : i ≠ .sort b) (hblock : s.block b = s'.block b)
    (hfidx : i = .bwti b → s.fidx = s'.fidx) (htables : i = .mtfe b true ∨ i = .mtfd b true → s.tables = s'.tables) :
    readBlock (effectOf i s) (dstOf b) s.len.toNat = readBlock (effectOf i s') (dstOf b) s'.len.toNat := by
  cases i with
  | nop => exact hreads.elim
  | sort b' => exact absurd (congrArg Instr.sort hreads.symm) hi
  | bwtf b' =>
    obtain rfl : b = b' := hreads
    have horder := order_effectOf_congr (.inr rfl) hblock
    simp only [effectOf, State.block] at hblock horder ⊢
    rw [readBlock_runForward b s s.len.isLt, readBlock_runForward b s' s'.len.isLt, horder, hblock]
  | bwti b' =>
    obtain rfl : b = b' := hreads
    simp only [effectOf, readBlock_runInverse, hfidx rfl]
    exact congrArg (fun S => (inverseMicro S _).out) hblock
  | mtfe b' c | mtfd b' c =>
    obtain rfl : b = b' := hreads
    have hstart : startTables c s = startTables c s' := startTables_congr fun hc => htables (by simp [hc])
    simp only [effectOf, State.block] at hblock ⊢
    rw [readBlock_finishRecode b _ s (by simp), readBlock_finishRecode b _ s' (by simp), hstart, hblock]

theorem tables_effectOf_congr {c : Bool} (hi : i = .mtfe b c ∨ i = .mtfd b c) (hblock : s.block b = s'.block b)
    (htables : c = true → s.tables = s'.tables) : (effectOf i s).tables = (effectOf i s').tables := by
  have hstart := startTables_congr htables
  simp only [State.block] at hblock
  rcases hi with rfl | rfl <;> simp only [effectOf, finishRecode_tables, hstart, hblock]

/-- Settles O60: the checks read LEN, CAP and FIDX, and each output of the successful command is a function of its
block and of the one further input R99 names for it. -/
theorem resultsDependOnNamedInputs : Obligations.ResultsDependOnNamedInputs := by
  intro i s s' t t' hlen hblock hfidx htables ht ht'
  have herr : t.err = t'.err := by rw [err_of_exec ht, err_of_exec ht', priorityCode_congr hlen hfidx]
  refine ⟨herr, fun h => ?_⟩
  obtain rfl := eq_effectOf_of_exec ht h
  obtain rfl := eq_effectOf_of_exec ht' (herr ▸ h)
  refine ⟨fun b hi => ?_, ?_, fun b hreads hi => ?_, fun b c hi => ?_⟩
  · have hsame : s.block b = s'.block b := hblock b (by rcases hi with rfl | rfl <;> rfl)
    have horder := order_effectOf_congr hi hsame
    rwa [← len_toNat_eq_of_block hsame] at horder
  · rintro b rfl
    exact fidx_effectOf_congr (hblock b rfl)
  · rw [block_effectOf, block_effectOf]
    exact dst_effectOf_congr hreads hi (hblock b hreads) (hfidx b) (htables b)
  · refine tables_effectOf_congr hi (hblock b (by rcases hi with rfl | rfl <;> rfl)) fun hc => ?_
    subst hc
    exact htables b hi

end Sys2Proof.Machine
end

section
/-! The suffix sorter (40_suffix_sorter.md R120 to R135): the order SORT leaves in ORD, what it does not write, and the
blocks whose order can be read off, those of equal bytes. -/

namespace Sys2Proof.Machine

variable {b : Buf} {s t : State}

/-! ### The order of the rotations -/

/-- Settles O20: SORT leaves an order of R121 in ORD, and there is only one. -/
theorem sortOrdersRotations : Obligations.SortOrdersRotations := by
  intro b s hfits
  obtain ⟨t, ht, herr, -, -, -, -, -, -, -, horder⟩ := exec_sort_spec b hfits
  exact ⟨t, ht, herr, horder, fun _ ho => ho.unique horder⟩

/-- Settles O21: the main loop comes to its end within its bound of rounds, with SP = 0 and STACK written below floor(n/2)
only, and the order it leaves is the only one. -/
theorem sortMicroRefinesOrder : Obligations.SortMicroRefinesOrder := by
  intro S gen stack h32
  obtain ⟨hrounds, hsp, -, -, hstack⟩ := sortMicro_spec S gen stack h32
  have horder := sortMicro_isOrder S gen stack h32
  refine ⟨hrounds, hsp, horder, fun _ ho => horder.unique ho, fun size hsize hwf => ?_⟩
  exact hstack size hwf ((half_le_stkcap (Nat.le_refl S.length)).trans hsize)

/-! ### What SORT leaves unchanged -/

theorem runSorter_sp (b : Buf) {n : Nat} (s : State) (h32 : n < 2 ^ 32) : (runSorter b n s).sp = 0 := by
  obtain ⟨-, hsp, -⟩ := sortMicro_spec (readBlock s b n) s.resets s.stack (by rwa [readBlock_length])
  exact hsp

/-- All that SORT can do: it raises VALIDATION, or it completes with the order in ORD. -/
theorem eq_of_exec_sort (ht : exec (.sort b) s = .next t) :
    t = { s with err := 1 } ∨ t = { runSorter b s.len.toNat s with err := 0 } := by
  rcases Nat.lt_or_ge s.cap.toNat s.len.toNat with h | h
  · exact .inl (Outcome_next_inj (ht.symm.trans (exec_tooLong _ nofun h)))
  · exact .inr (Outcome_next_inj (ht.symm.trans (exec_sort_fits b h)))

/-- Settles O22: a failed SORT writes STATUS.ERR only, and a successful one ORD[0..n), STACK and SP besides. -/
theorem sortFrame : Obligations.SortFrame := by
  intro b s t ht
  rcases eq_of_exec_sort ht with rfl | rfl
  · exact ⟨⟨rfl, rfl, rfl, rfl, rfl⟩, rfl, rfl, bufRead_with_err s 1, fun _ _ => rfl, ⟨rfl, rfl, rfl, rfl⟩, nofun⟩
  · refine ⟨⟨rfl, rfl, rfl, rfl, rfl⟩, rfl, rfl, fun c i => ?_, fun i hi => ?_, ⟨rfl, rfl, rfl, rfl⟩, fun _ => ?_⟩
    · exact (bufRead_with_err _ 0 c i).trans (bufRead_eq_of_buf (runSorter_buf b c _ s) rfl i)
    · exact ordRead_runSorter_ge b s s.len.isLt hi
    · exact runSorter_sp b s s.len.isLt

/-! ### Blocks of equal bytes -/

theorem rot_replicate (n : Nat) (v : Byte) (k : Nat) : rot (List.replicate n v) k = List.replicate n v := by
  refine List.eq_replicate_iff.mpr ⟨by simp [rot], fun x hx => ?_⟩
  obtain ⟨t, ht, rfl⟩ := List.mem_map.mp hx
  have hpos : 0 < n := Nat.zero_lt_of_lt (by simpa using ht)
  simp [circByte, circ, Nat.mod_lt _ hpos]

/-- All the rotations are equal, so the tie-break alone decides (40_suffix_sorter.md R123). -/
theorem isOrder_replicate (n : Nat) (v : Byte) : IsOrder (List.replicate n v) (List.range n) := by
  refine ⟨by rw [List.length_replicate], fun i j hij hj => .inr ⟨?_, ?_⟩⟩
  · rw [rot_replicate, rot_replicate]
  · rw [List.length_replicate] at hj
    simpa [hj, hij.trans hj] using hij

theorem State.block_eq_replicate {v : Byte} (h : ∀ i, i < s.len.toNat → bufRead s b i = v) :
    s.block b = List.replicate s.len.toNat v := by
  refine List.eq_replicate_iff.mpr ⟨readBlock_length s b _, fun x hx => ?_⟩
  obtain ⟨i, hi, rfl⟩ := List.mem_map.mp hx
  exact h i (List.mem_range.mp hi)

theorem State.order_getD (s : State) {n i : Nat} (hi : i < n) : (s.order n).getD i 0 = (ordRead s i).toNat := by
  simp [State.order, readOrd, hi]

/-- Settles O24: ascending offsets are the one order of a block of equal bytes. -/
theorem sortOfEqualBytesIsIdentity : Obligations.SortOfEqualBytesIsIdentity := by
  intro b v s hfits hequal
  obtain ⟨t, ht, herr, -, hunique⟩ := sortOrdersRotations b s hfits
  have horder : List.range s.len.toNat = t.order s.len.toNat :=
    hunique _ (State.block_eq_replicate hequal ▸ isOrder_replicate s.len.toNat v)
  refine ⟨t, ht, herr, fun i hi => ?_⟩
  rw [← State.order_getD t hi, ← horder]
  simp [hi]

/-! ### Short blocks -/

theorem runSorter_zero (b : Buf) (s : State) : runSorter b 0 s = { s with sp := 0 } := by
  simp only [runSorter, readBlock, List.range_zero, List.map_nil, sortMicro_eq]
  rw [sortLoop_empty [] _ _ rfl]
  rfl

/-- Settles O23: no byte leaves nothing to write, and one byte is a block of equal bytes. -/
theorem sortOfShortBlocks : Obligations.SortOfShortBlocks := by
  refine fun b s => ⟨fun hlen => ?_, fun hlen hcap => ?_⟩
  · have h0 : s.len.toNat = 0 := by rw [hlen]; rfl
    rw [exec_sort_fits b (by omega), h0, runSorter_zero]
  · have h1 : s.len.toNat = 1 := by rw [hlen]; rfl
    obtain ⟨t, ht, herr, hord⟩ := sortOfEqualBytesIsIdentity b (bufRead s b 0) s (by omega)
      fun i hi => by rw [show i = 0 by omega]
    exact ⟨t, ht, herr, BitVec.eq_of_toNat_eq (hord 0 (by omega))⟩

end Sys2Proof.Machine
end

section
/-! The Burrows-Wheeler transformer (41_bwt_transformer.md R150 to R173): BWTF's first index and payload as functions of
the order, BWTI's walk, what neither writes, and why BWTI undoes BWTF. -/

namespace Sys2Proof.Machine

variable {b : Buf} {s t : State} {S : List Byte} {o : List Nat}

/-! ### Forward: first index and payload (R151, R157) -/

/-- Offset 0 stands in one row only. -/
theorem IsWeakOrder.getD_eq_zero_iff (h : IsWeakOrder S o) {i : Nat} (hi : i < S.length) :
    o.getD i 0 = 0 ↔ i = o.idxOf 0 := by
  have hio : i < o.length := h.length ▸ hi
  constructor
  · intro hzero
    rw [List.getD_eq_getElem _ _ hio] at hzero
    have hrow := (h.1.nodup_iff.mpr List.nodup_range).idxOf_getElem i hio
    rw [hzero] at hrow
    exact hrow.symm
  · rintro rfl
    obtain ⟨-, hzero, -⟩ := h.firstRow (Nat.one_le_of_lt hi)
    exact hzero

@[simp] theorem State.block_length (s : State) (b : Buf) : (s.block b).length = s.len.toNat := readBlock_length s b _

/-- The row FIDX names is in range and holds offset 0. -/
theorem IsWeakOrder.fidx_row (ho : IsWeakOrder (s.block b) o) (hpos : 1 ≤ s.len.toNat) {fi : Nat}
    (hfi : fi = o.idxOf 0) : fi < s.len.toNat ∧ o.getD fi 0 = 0 := by
  obtain ⟨hrow, hzero, -⟩ := ho.firstRow ((s.block_length b).symm ▸ hpos)
  rw [State.block_length] at hrow
  exact hfi ▸ ⟨hrow, hzero⟩

/-- Reading one byte of a payload that was read as a block. -/
theorem bufRead_of_payload {c : Buf} (ho : IsWeakOrder (s.block b) o)
    (hpay : readBlock t c s.len.toNat = o.map (payloadByte (s.block b))) {i : Nat} (hi : i < s.len.toNat) :
    bufRead t c i = (s.block b).getD ((o.getD i 0 + s.len.toNat - 1) % s.len.toNat) 0 := by
  rw [← readBlock_getD t c hi, hpay, payload_getD (by rwa [ho.length, State.block_length]), payloadByte,
    State.block_length]

/-- Settles O25: SORT_MICRO's order in ORD, and FIDX and the payload read off it. -/
theorem bwtfResult : Obligations.BwtfResult := by
  intro b s hpos hfits
  obtain ⟨t, ht, herr, -, -, hresets, -, hsrc, horder, hfidx, hpay⟩ := exec_bwtf_spec b hfits hpos
  obtain ⟨hrow, -⟩ := IsWeakOrder.fidx_row horder.weak hpos hfidx
  refine ⟨t, ht, herr, horder, fun i hi => ?_, hrow, fun i => bufRead_of_payload horder.weak hpay,
    bufRead_eq_of_buf hsrc hresets⟩
  rw [hfidx]
  exact horder.weak.getD_eq_zero_iff ((readBlock_length s b _).symm ▸ hi)

theorem map_getD_range (P : List Byte) : (List.range P.length).map (fun j => P.getD j 0) = P := by
  apply List.ext_getElem
  · simp
  · intro i h1 h2
    simp [h2]

/-- The payload is a rearrangement of the block: offsets one step back are the offsets again. -/
theorem IsWeakOrder.payload_perm (h : IsWeakOrder S o) : (o.map (payloadByte S)).Perm S :=
  calc (o.map (payloadByte S)).Perm ((List.range S.length).map (payloadByte S)) := h.1.map _
    _ = ((List.range S.length).map fun k => (k + S.length - 1) % S.length).map fun j => S.getD j 0 := by
      rw [List.map_map]
      rfl
    List.Perm _ ((List.range S.length).map fun j => S.getD j 0) := (range_pred_perm S.length).map _
    _ = S := map_getD_range S

/-- The payload byte of offset `k` is the last byte of the rotation at `k`. -/
theorem payloadByte_eq_rot_last (hpos : 1 ≤ S.length) (k : Nat) :
    payloadByte S k = (rot S k).getD (S.length - 1) 0 := by
  rw [rot_getD S k (by omega), circByte, circ, payloadByte, Nat.add_sub_assoc hpos]

/-- Settles O27: the payload byte of a row is the last byte of its rotation, and FIDX names the row of offset 0. -/
theorem bwtfPayloadProperties : Obligations.BwtfPayloadProperties := by
  intro b s hpos hfits
  obtain ⟨t, ht, herr, hlent, -, -, -, -, horder, hfidx, hpay⟩ := exec_bwtf_spec b hfits hpos
  have hlen := s.block_length b
  obtain ⟨hrow, hzero⟩ := IsWeakOrder.fidx_row horder.weak hpos hfidx
  refine ⟨t, ht, herr, ?_, hrow, ?_, fun i hi => ?_⟩
  · rw [State.block, hlent, hpay]
    exact horder.weak.payload_perm
  · rw [hzero]
    exact rot_zero _
  · rw [bufRead_of_payload horder.weak hpay hi, ← hlen]
    exact payloadByte_eq_rot_last (hlen.symm ▸ hpos) _

/-- Settles O29: admissible orders list the same rotations, and a payload byte is the last byte of a rotation. -/
theorem payloadIndependentOfTieBreak : Obligations.PayloadIndependentOfTieBreak := by
  intro b s o hpos hfits ho
  obtain ⟨t, ht, herr, -, -, -, -, -, horder, -, hpay⟩ := exec_bwtf_spec b hfits hpos
  have hpayo : readBlock t (dstOf b) s.len.toNat = o.map (payloadByte (s.block b)) :=
    hpay.trans (payload_of_weakOrders horder.weak ho)
  exact ⟨t, ht, herr, fun i => bufRead_of_payload ho hpayo, ho.rotations horder.weak⟩

/-! ### Rows of smaller and of equal rotations (R154, R169) -/

/-- When `p` holds of everything that stands before an element it holds of, it holds of exactly the first `countP p`
elements. -/
theorem getElem_iff_lt_countP {α : Type} {p : α → Bool} {l : List α} (h : l.Pairwise fun x y => p y = true → p x = true)
    {i : Nat} (hi : i < l.length) : p l[i] = true ↔ i < l.countP p := by
  induction l generalizing i with
  | nil => cases hi
  | cons x l ih =>
    obtain ⟨hx, hl⟩ := List.pairwise_cons.mp h
    by_cases hp : p x = true
    · rw [List.countP_cons_of_pos hp]
      cases i with
      | zero => simp [hp]
      | succ i => simpa using ih hl (Nat.lt_of_succ_lt_succ hi)
    · have hnone : ∀ y ∈ x :: l, ¬ p y = true :=
        List.forall_mem_cons.mpr ⟨hp, fun y hy hpy => hp (hx y hy hpy)⟩
      rw [List.countP_eq_zero.mpr hnone]
      exact iff_of_false (hnone _ (List.getElem_mem hi)) (Nat.not_lt_zero i)

theorem countP_add_countP_of_disjoint {α : Type} {p q : α → Bool} (h : ∀ x, p x = true → q x = false) (l : List α) :
    l.countP p + l.countP q = l.countP fun x => p x || q x := by
  induction l with
  | nil => rfl
  | cons x l ih =>
    cases hp : p x with
    | false =>
      simp only [List.countP_cons, hp, Bool.false_or, Bool.false_eq_true, if_false]
      omega
    | true =>
      simp only [List.countP_cons, hp, h x hp, Bool.true_or, Bool.false_eq_true, if_true, if_false]
      omega

/-- A set of rotations that reaches down along their order takes up the first rows. -/
theorem IsWeakOrder.row_iff_lt_countP (ho : IsWeakOrder S o) {p : Nat → Bool}
    (hdown : ∀ j k, nats (rot S j) ≤ nats (rot S k) → p k = true → p j = true) {i : Nat} (hi : i < S.length) :
    p (o.getD i 0) = true ↔ i < (List.range S.length).countP p := by
  have hio : i < o.length := ho.length ▸ hi
  rw [← ho.1.countP_eq, List.getD_eq_getElem _ _ hio]
  exact getElem_iff_lt_countP (ho.pairwise.imp fun hle => hdown _ _ hle) hio

/-- The rotations smaller than `X` take up the first rows. -/
theorem IsWeakOrder.lexLt_row_iff (ho : IsWeakOrder S o) {X : List Byte} (hX : X.length = S.length) {i : Nat}
    (hi : i < S.length) :
    lexLt (rot S (o.getD i 0)) X ↔ i < (List.range S.length).countP fun k => decide (lexLt (rot S k) X) := by
  rw [← ho.row_iff_lt_countP (fun j k hle hlt => ?_) hi, decide_eq_true_iff]
  rw [decide_eq_true_iff, lexLt_iff_nats (by simp [hX])] at hlt ⊢
  exact hle.trans_lt hlt

/-- The row of offset 0 has as many rows before it as there are smaller rotations: the tie-break puts offset 0 first
among the rotations equal to the block. -/
theorem IsOrder.idxOf_zero_eq_countP (ho : IsOrder S o) (hpos : 1 ≤ S.length) :
    o.idxOf 0 = (List.range S.length).countP fun k => decide (lexLt (rot S k) (rot S 0)) := by
  obtain ⟨hrow, hzero, -⟩ := ho.weak.firstRow hpos
  have hsmaller := fun {i} => ho.weak.lexLt_row_iff (i := i) (rot_length S 0)
  apply Nat.le_antisymm
  · by_contra hle
    have hlt := Nat.lt_of_not_le hle
    refine Nat.lt_irrefl _ ((hsmaller (hlt.trans hrow)).mp ?_)
    have hkey := ho.2 _ _ hlt hrow
    rw [hzero] at hkey
    exact hkey.resolve_right fun htie => Nat.not_lt_zero _ htie.2
  · by_contra hle
    have hself := (hsmaller hrow).mpr (Nat.lt_of_not_le hle)
    rw [hzero] at hself
    exact lexLt_irrefl _ hself

/-- Settles O28: FIDX is the row of offset 0, and the smaller rotations are the rows before it. -/
theorem fidxCountsSmallerRotations : Obligations.FidxCountsSmallerRotations := by
  intro b s hpos hfits
  obtain ⟨t, ht, herr, -, -, -, -, -, horder, hfidx, -⟩ := exec_bwtf_spec b hfits hpos
  have hcount := IsOrder.idxOf_zero_eq_countP (S := s.block b) horder ((s.block_length b).symm ▸ hpos)
  rw [State.block_length] at hcount
  exact ⟨t, ht, herr, hfidx.trans hcount⟩

/-- The rows after those of the smaller rotations, as many as there are rotations equal to the block, hold the block. -/
theorem IsWeakOrder.rot_row_eq_of_tied (ho : IsWeakOrder S o) {i : Nat}
    (hlow : (List.range S.length).countP (fun k => decide (lexLt (rot S k) S)) ≤ i)
    (hhigh : i < (List.range S.length).countP (fun k => decide (lexLt (rot S k) S)) +
      (List.range S.length).countP fun k => decide (rot S k = S)) :
    i < S.length ∧ rot S (o.getD i 0) = S := by
  rw [countP_add_countP_of_disjoint fun k hlt => ?disjoint] at hhigh
  case disjoint =>
    rw [decide_eq_true_iff] at hlt
    exact decide_eq_false fun heq => lexLt_irrefl S (by rwa [heq] at hlt)
  have hi : i < S.length := hhigh.trans_le (List.countP_le_length.trans_eq List.length_range)
  refine ⟨hi, ?_⟩
  have hle := (ho.row_iff_lt_countP (fun j k hjk hk => ?down) hi).mpr hhigh
  case down =>
    simp only [Bool.or_eq_true, decide_eq_true_iff] at hk ⊢
    rw [lexLt_iff_nats (by simp), ← nats_injective.eq_iff, ← le_iff_lt_or_eq] at hk ⊢
    exact hjk.trans hk
  simp only [Bool.or_eq_true, decide_eq_true_iff] at hle
  exact hle.resolve_left fun hlt => Nat.not_lt.mpr hlow ((ho.lexLt_row_iff rfl hi).mp hlt)

/-! ### Inverse (R161 to R165, R170) -/

/-- There is only one first column (R162). -/
theorem IsFirstColumn.unique {P F G : List Byte} (hF : IsFirstColumn P F) (hG : IsFirstColumn P G) : F = G := by
  refine List.ext_getElem (hF.1.trans hG.1.symm) fun i hi hi' => ?_
  obtain ⟨v, t, hv, ht, hrow⟩ := exists_block P (hF.1 ▸ hi)
  rw [← List.getD_eq_getElem _ 0 hi, ← List.getD_eq_getElem _ 0 hi']
  have hFv := hF.2 v i hv (by omega) (by omega)
  have hGv := hG.2 v i hv (by omega) (by omega)
  exact BitVec.eq_of_toNat_eq (hFv.trans hGv.symm)

/-- There is only one LF mapping (R163). -/
theorem IsLfMap.unique {P : List Byte} {next other : List Nat} (hn : IsLfMap P next) (ho : IsLfMap P other) :
    next = other := by
  refine List.ext_getElem (hn.1.trans ho.1.symm) fun i hi hi' => ?_
  obtain ⟨v, t, hv, ht, rfl⟩ := exists_block P (hn.1 ▸ hi)
  rw [← List.getD_eq_getElem _ 0 hi, ← List.getD_eq_getElem _ 0 hi', hn.2 v t hv ht, ho.2 v t hv ht]

/-- Settles O30: FCOL and NEXT of the micro-sequence are the F and `next`, and the walk emits F[pos_k]. -/
theorem bwtiResult : Obligations.BwtiResult := by
  intro b s hfidx hfits
  obtain ⟨t, ht, herr, -, -, -, -, -, -, -, hout⟩ := exec_bwti_spec b hfits hfidx
  have hF := inverseMicro_isFirstColumn (s.block b) s.fidx.toNat
  have hnext := inverseMicro_isLfMap (s.block b) s.fidx.toNat
  refine ⟨t, _, _, ht, herr, hF, hnext, fun F' next' hF' hnext' => ⟨hF'.unique hF, hnext'.unique hnext⟩, fun k hk => ?_⟩
  rw [← readBlock_getD t (dstOf b) hk, hout]
  exact inverseMicro_out_getD _ _ ((s.block_length b).symm ▸ hk)

/-- FCOL is the payload read along NEXT. -/
theorem IsFirstColumn.eq_map {P F : List Byte} {next : List Nat} (hF : IsFirstColumn P F) (hn : IsLfMap P next) :
    F = next.map fun j => P.getD j 0 := by
  refine List.ext_getElem (by simp [hF.1, hn.1]) fun i hi hi' => ?_
  have hin : i < next.length := by simpa using hi'
  rw [← List.getD_eq_getElem _ 0 hi, hF.eq_payload hn (hF.1 ▸ hi), List.getD_eq_getElem next 0 hin, List.getElem_map]

theorem IsFirstColumn.perm {P F : List Byte} {next : List Nat} (hF : IsFirstColumn P F) (hn : IsLfMap P next) :
    F.Perm P := by
  rw [hF.eq_map hn]
  exact (hn.perm.map _).trans (.of_eq (map_getD_range P))

theorem IsFirstColumn.sorted {P F : List Byte} {next : List Nat} (hF : IsFirstColumn P F) (hn : IsLfMap P next) :
    F.Pairwise fun x y => x.toNat ≤ y.toNat := by
  rw [List.pairwise_iff_getElem]
  intro i j hi hj hij
  have hjP : j < P.length := hF.1 ▸ hj
  rw [← List.getD_eq_getElem _ 0 hi, ← List.getD_eq_getElem _ 0 hj, hF.eq_payload hn (hij.trans hjP),
    hF.eq_payload hn hjP]
  rcases hn.sorted hij hjP with hlt | ⟨heq, -⟩
  · exact hlt.le
  · exact heq.le

/-- Settles O32: FCOL and NEXT are the F and `next` of R162 and R163, NEXT lists the positions of the payload by
(byte, position), and HEAD has moved up once for each byte of the whole payload. -/
theorem bwtiMicroSequenceBuildsColumnAndMap : Obligations.BwtiMicroSequenceBuildsColumnAndMap := by
  intro P fi
  have hF := inverseMicro_isFirstColumn P fi
  have hnext := inverseMicro_isLfMap P fi
  exact ⟨hF.perm hnext, hF.sorted hnext, hnext.perm, fun i hi => (hF.eq_payload hnext hi).symm,
    fun v hv => ⟨countBytes_getD P hv, (mapLoop_final P).heads v hv⟩⟩

/-! ### BWTI undoes BWTF (R168, R169, R173) -/

/-- BWTI on the payload of an admissible order gives the rotation of the row named by FIDX. -/
theorem exec_bwti_of_payload {c : Buf} (ho : IsWeakOrder S o) (hfits : s.len.toNat ≤ s.cap.toNat)
    (hlen : s.len.toNat = S.length) (hpay : s.block c = o.map (payloadByte S)) (hfidx : s.fidx.toNat < S.length) :
    ∃ u, exec (.bwti c) s = .next u ∧ u.err = 0 ∧ u.block (dstOf c) = rot S (o.getD s.fidx.toNat 0) := by
  obtain ⟨u, hu, herr, hlenu, -, -, -, -, -, -, hout⟩ := exec_bwti_spec c hfits (hlen.symm ▸ hfidx)
  refine ⟨u, hu, herr, ?_⟩
  rw [State.block, hlenu, hout, ← inverseMicro_of_order ho hfidx, ← hpay]
  rfl

/-- BWTF, and BWTI from every state that kept LEN, the capacity and the payload, with any first index in range. -/
theorem exec_bwtf_then_bwti (b : Buf) (hpos : 1 ≤ s.len.toNat) (hfits : s.len.toNat ≤ s.cap.toNat) :
    ∃ t, exec (.bwtf b) s = .next t ∧ t.err = 0 ∧ t.len = s.len ∧ t.fidx.toNat = (t.order s.len.toNat).idxOf 0 ∧
      IsOrder (s.block b) (t.order s.len.toNat) ∧
      ∀ t' : State, t'.len = t.len → t'.cap = t.cap → t'.block (dstOf b) = t.block (dstOf b) →
        t'.fidx.toNat < s.len.toNat → ∃ u, exec (.bwti (dstOf b)) t' = .next u ∧ u.err = 0 ∧
          u.block b = rot (s.block b) ((t.order s.len.toNat).getD t'.fidx.toNat 0) := by
  obtain ⟨t, ht, herr, hlent, hcapt, -, -, -, horder, hfidx, hpay⟩ := exec_bwtf_spec b hfits hpos
  refine ⟨t, ht, herr, hlent, hfidx, horder, fun t' hlen' hcap' hblock' hfidx' => ?_⟩
  have hpay' : t'.block (dstOf b) = (t.order s.len.toNat).map (payloadByte (s.block b)) := by
    rw [hblock', State.block, hlent, hpay]
    rfl
  have hinv := exec_bwti_of_payload horder.weak (by rwa [hlen', hcap', hlent, hcapt])
    (by rw [hlen', hlent, readBlock_length]) hpay' (by rwa [readBlock_length])
  rwa [dstOf_dstOf] at hinv

/-- Settles O34: the walk along NEXT steps through the rotation of the row it starts from. -/
theorem otherFirstIndexGivesRotation : Obligations.OtherFirstIndexGivesRotation := by
  intro b s hpos hfits
  obtain ⟨t, ht, herr, hlent, -, -, hinv⟩ := exec_bwtf_then_bwti b hpos hfits
  exact ⟨t, ht, herr, fun t' hlen' hcap' hblock' hfidx' => hinv t' hlen' hcap' hblock' (hlent ▸ hfidx')⟩

/-- Settles O33: the row FIDX names holds offset 0, and the rotation at offset 0 is the block. -/
theorem roundTripBwt : Obligations.RoundTripBwt := by
  intro b s hpos hfits
  obtain ⟨t, ht, herr, -, hfidx, horder, hinv⟩ := exec_bwtf_then_bwti b hpos hfits
  obtain ⟨hrow, hzero⟩ := horder.weak.fidx_row hpos hfidx
  refine ⟨t, ht, herr, fun t' hlen' hfidx' hcap' hblock' => ?_⟩
  obtain ⟨u, hu, herru, hblock⟩ := hinv t' hlen' hcap' hblock' (hfidx' ▸ hrow)
  rw [hfidx', hzero, rot_zero] at hblock
  exact ⟨u, hu, herru, hblock⟩

/-- Settles O35: every tied row holds the block, so its rotation is the block. -/
theorem tiedFirstIndexInverts : Obligations.TiedFirstIndexInverts := by
  rintro b s m ties hpos hfits rfl rfl
  obtain ⟨t, ht, herr, -, -, horder, hinv⟩ := exec_bwtf_then_bwti b hpos hfits
  refine ⟨t, ht, herr, fun t' hlen' hcap' hblock' hlow hhigh => ?_⟩
  rw [← s.block_length b] at hlow hhigh
  obtain ⟨hrow, hrot⟩ := horder.weak.rot_row_eq_of_tied hlow hhigh
  obtain ⟨u, hu, herru, hblock⟩ := hinv t' hlen' hcap' hblock' (by rwa [State.block_length] at hrow)
  exact ⟨u, hu, herru, hblock.trans hrot⟩

/-! ### What BWTF and BWTI leave unchanged (R156, R167) -/

/-- ORD[n..NMAX) after BWTF_MICRO. -/
theorem ordRead_runForward_ge (b : Buf) {n : Nat} (s : State) (h32 : n < 2 ^ 32) {i : Nat} (hi : n ≤ i) :
    ordRead (runForward b n s) i = ordRead s i :=
  (ordRead_eq_of_ord (runForward_ord b n s) (runForward_resets b n s) i).trans (ordRead_runSorter_ge b s h32 hi)

/-- Settles O26: a failed BWTF writes STATUS.ERR only, and a successful one what `runForward` writes. -/
theorem bwtfFrame : Obligations.BwtfFrame := by
  intro b s t ht
  rcases exec_cases (.bwtf b) s with ⟨e, he, hs⟩ | ⟨hs, -, -⟩
  · obtain rfl := Outcome_next_inj (hs.symm.trans ht)
    exact ⟨⟨rfl, rfl, rfl, rfl, rfl⟩, rfl, bufRead_with_err s e b, fun i _ => bufRead_with_err s e _ i,
      fun _ _ => rfl, ⟨rfl, rfl, rfl, rfl⟩, fun h => by rcases he with rfl | rfl <;> cases h⟩
  · obtain rfl := Outcome_next_inj (hs.symm.trans ht)
    refine ⟨effectOf_keepsInputs (.bwtf b) s, runForward_tables b _ s, fun i => ?_, fun i hi => ?_, fun i hi => ?_,
      ⟨runForward_fcol b _ s, runForward_nxt b _ s, runForward_cnt b _ s, runForward_head b _ s⟩, fun _ => ?_⟩
    · rw [bufRead_with_err]
      exact bufRead_eq_of_buf (runForward_src b _ s) (runForward_resets b _ s) i
    · rw [bufRead_with_err]
      exact bufRead_runForward_ge b s s.len.isLt hi
    · exact ordRead_runForward_ge b s s.len.isLt hi
    · exact (runForward_sp b _ s).trans (runSorter_sp b s s.len.isLt)

/-- Settles O31: a failed BWTI writes STATUS.ERR only, and a successful one what `runInverse` writes. -/
theorem bwtiFrame : Obligations.BwtiFrame := by
  intro b s t ht
  rcases exec_cases (.bwti b) s with ⟨e, -, hs⟩ | ⟨hs, -, -⟩
  · obtain rfl := Outcome_next_inj (hs.symm.trans ht)
    exact ⟨⟨rfl, rfl, rfl, rfl, rfl⟩, rfl, rfl, bufRead_with_err s e b, fun i _ => bufRead_with_err s e _ i,
      fun _ => rfl, rfl, rfl⟩
  · obtain rfl := Outcome_next_inj (hs.symm.trans ht)
    refine ⟨effectOf_keepsInputs (.bwti b) s, runInverse_fidx b _ _ s, runInverse_tables b _ _ s, fun i => ?_,
      fun i hi => ?_, fun i => ?_, runInverse_stack b _ _ s, runInverse_sp b _ _ s⟩
    · rw [bufRead_with_err]
      exact bufRead_eq_of_buf (runInverse_src b _ _ s) (runInverse_resets b _ _ s) i
    · rw [bufRead_with_err]
      exact bufRead_runInverse_ge b _ _ s hi
    · exact ordRead_eq_of_ord (runInverse_ord b _ _ s) (runInverse_resets b _ _ s) i

end Sys2Proof.Machine
end

section
/-! The move-to-front recoder (42_mtf_recoder.md R180 to R193): a command as one run of ENC_STEP or DEC_STEP over its
block, FRONT and the runs as operations on one list, and what neither command writes. -/

namespace Sys2Proof.Machine

variable {b b' : Buf} {c c' : Bool} {s t d u : State} {run : MtfTables → List Byte → List Byte × MtfTables}

/-! ### A command is one run over its block (R187, R188) -/

/-- `t` is `s` after a successful command that recoded the block of `b` by `run`. -/
structure Recoded (run : MtfTables → List Byte → List Byte × MtfTables) (b : Buf) (c : Bool) (s t : State) :
    Prop where
  err : t.err = 0
  len : t.len = s.len
  cap : t.cap = s.cap
  result : run (startTables c s) (s.block b) = (t.block (dstOf b), t.tables)

theorem exec_mtfe_recoded (b : Buf) (c : Bool) (hfits : s.len.toNat ≤ s.cap.toNat) :
    ∃ t, exec (.mtfe b c) s = .next t ∧ Recoded encodeRun b c s t := by
  obtain ⟨t, ht, herr, hlen, -, hcap, -, -, -, htables, hout⟩ := exec_mtfe_spec b c hfits
  refine ⟨t, ht, herr, hlen, hcap, Prod.ext ?_ htables.symm⟩
  rw [State.block, State.block, hlen, hout]

theorem exec_mtfd_recoded (b : Buf) (c : Bool) (hfits : s.len.toNat ≤ s.cap.toNat) :
    ∃ t, exec (.mtfd b c) s = .next t ∧ Recoded decodeRun b c s t := by
  obtain ⟨t, ht, herr, hlen, -, hcap, -, -, -, htables, hout⟩ := exec_mtfd_spec b c hfits
  refine ⟨t, ht, herr, hlen, hcap, Prod.ext ?_ htables.symm⟩
  rw [State.block, State.block, hlen, hout]

theorem recoded_of_exec_mtfe (hfits : s.len.toNat ≤ s.cap.toNat) (ht : exec (.mtfe b c) s = .next t) :
    Recoded encodeRun b c s t := by
  obtain ⟨t', ht', hrun⟩ := exec_mtfe_recoded b c hfits
  rwa [Outcome_next_inj (ht'.symm.trans ht)] at hrun

theorem recoded_of_exec_mtfd (hfits : s.len.toNat ≤ s.cap.toNat) (ht : exec (.mtfd b c) s = .next t) :
    Recoded decodeRun b c s t := by
  obtain ⟨t', ht', hrun⟩ := exec_mtfd_recoded b c hfits
  rwa [Outcome_next_inj (ht'.symm.trans ht)] at hrun

theorem Recoded.fits (h : Recoded run b c s t) (hfits : s.len.toNat ≤ s.cap.toNat) : t.len.toNat ≤ t.cap.toNat := by
  rwa [h.len, h.cap]

theorem Recoded.block_dst (h : Recoded run b c s t) :
    t.block (dstOf b) = (run (startTables c s) (s.block b)).1 := by
  rw [h.result]

theorem Recoded.tables (h : Recoded run b c s t) : t.tables = (run (startTables c s) (s.block b)).2 := by
  rw [h.result]

/-- With CONT = 0 the output is that of a separate run (R182). -/
theorem Recoded.block_dst_of_restart (h : Recoded run b false s t) {B : List Byte} (hB : s.block b = B) :
    t.block (dstOf b) = (run MtfTables.identity B).1 := by
  rw [h.block_dst, hB]
  rfl

theorem Recoded.bufRead_dst (h : Recoded run b c s t) {i : Nat} (hi : i < s.len.toNat) :
    bufRead t (dstOf b) i = (run (startTables c s) (s.block b)).1.getD i 0 := by
  rw [← h.block_dst, State.block, h.len, readBlock_getD _ _ hi]

/-! ### FRONT on one list (R183, R184) -/

/-- MORDER lists every byte value once. -/
theorem MtfTables.inverse.morder_nodup {T : MtfTables} (h : T.inverse) : T.morder.toList.Nodup := by
  refine List.nodup_iff_injective_getElem.mpr fun x y hxy => Fin.ext ?_
  exact h.injective (by simpa using x.isLt) (by simpa using y.isLt) (by simpa using hxy)

/-- The place of a byte value in MORDER is its rank. -/
theorem MtfTables.inverse.idxOf_morder {T : MtfTables} (h : T.inverse) (v : Byte) :
    T.morder.toList.idxOf v = (T.mrank[v.toNat]).toNat := by
  have hp : (T.mrank[v.toNat]).toNat < T.morder.toList.length := by
    rw [Vector.length_toList]
    exact (T.mrank[v.toNat]).isLt
  have hv : T.morder.toList[(T.mrank[v.toNat]).toNat] = v := by simpa using h.2 v
  have hrow := h.morder_nodup.idxOf_getElem _ hp
  rwa [hv] at hrow

/-- FRONT takes the byte value out of the list and puts it in front. -/
theorem front_morder_toList {T : MtfTables} (h : T.inverse) (v : Byte) :
    (front T v).morder.toList = v :: T.morder.toList.erase v := by
  rw [List.erase_eq_eraseIdx_of_idxOf (h.idxOf_morder v)]
  refine List.ext_getElem ?_ fun r hr _ => ?_
  · have hp : (T.mrank[v.toNat]).toNat < 256 := (T.mrank[v.toNat]).isLt
    simp [List.length_eraseIdx, hp]
  · rw [Vector.getElem_toList, front_morder h v r (by simpa using hr)]
    cases r with
    | zero => rfl
    | succ k =>
      rw [List.getElem_cons_succ, List.getElem_eraseIdx, if_neg (Nat.succ_ne_zero k)]
      by_cases hk : k < (T.mrank[v.toNat]).toNat
      · rw [dif_pos hk, if_pos (Nat.succ_le_of_lt hk), Vector.getElem_toList]
        rfl
      · rw [dif_neg hk, if_neg (mt Nat.lt_of_succ_le hk), Vector.getElem_toList]

/-- A byte value of rank 0 is in front already. -/
theorem front_of_rank_zero {T : MtfTables} (h : T.inverse) {v : Byte} (hv : T.mrank[v.toNat] = 0) : front T v = T := by
  have hfirst : T.morder[0] = v := by simpa [hv] using h.2 v
  have hloop : frontLoop T (T.mrank[v.toNat]).toNat (T.mrank[v.toNat]).isLt = T := by
    simp only [hv]
    rfl
  have horder : T.morder.set 0 v = T.morder := hfirst ▸ Vector.set_getElem_self _
  have hrank : T.mrank.set v.toNat 0 = T.mrank := hv ▸ Vector.set_getElem_self _
  simp only [front, hloop, horder, hrank]

/-- Settles O36: the cases of `front_morder`, and a byte value of rank 0 is in front already. -/
theorem frontMovesToFront : Obligations.FrontMovesToFront := by
  intro T v h
  refine ⟨front_morder_zero T v, fun r hr hlow hhigh => ?_, fun r hr hlow => ?_, front_inverse h v,
    front_of_rank_zero h⟩
  · rw [front_morder h v r hr, if_neg (Nat.ne_of_gt hlow), if_pos hhigh]
  · rw [front_morder h v r hr, if_neg (Nat.ne_zero_of_lt hlow), if_neg (Nat.not_le.mpr hlow)]

/-! ### The runs on one list (00_scope.md, glossary: MTF) -/

theorem encodeRun_eq_listEncode {T : MtfTables} (h : T.inverse) (B : List Byte) :
    (encodeRun T B).1.map BitVec.toNat = (listEncode T.morder.toList B).1 ∧
      (encodeRun T B).2.morder.toList = (listEncode T.morder.toList B).2 := by
  induction B generalizing T with
  | nil => exact ⟨rfl, rfl⟩
  | cons v vs ih =>
    obtain ⟨hout, hlist⟩ := ih (front_inverse h v)
    rw [front_morder_toList h] at hout hlist
    exact ⟨congrArg₂ List.cons (h.idxOf_morder v).symm hout, hlist⟩

theorem decodeRun_eq_listDecode {T : MtfTables} (h : T.inverse) (B : List Byte) :
    (decodeRun T B).1 = (listDecode T.morder.toList B).1 ∧
      (decodeRun T B).2.morder.toList = (listDecode T.morder.toList B).2 := by
  induction B generalizing T with
  | nil => exact ⟨rfl, rfl⟩
  | cons p ps ih =>
    have hemit : T.morder.toList.getD p.toNat 0 = decEmit T p := by
      have hp : p.toNat < T.morder.toList.length := by simpa using p.isLt
      rw [List.getD_eq_getElem _ _ hp]
      exact Vector.getElem_toList hp
    obtain ⟨hout, hlist⟩ := ih (front_inverse h (decEmit T p))
    rw [front_morder_toList h] at hout hlist
    simp only [listDecode, hemit]
    exact ⟨congrArg (List.cons _) hout, hlist⟩

/-- Settles O40: the run of ENC_STEP from mutually inverse tables is the list encoder on MORDER. -/
theorem mtfeMatchesListRecoder : Obligations.MtfeMatchesListRecoder := by
  intro b c s hfits htables
  obtain ⟨t, ht, hrun⟩ := exec_mtfe_recoded b c hfits
  have hlist := encodeRun_eq_listEncode (startTables_inverse_of_tables htables c) (s.block b)
  rw [hrun.result] at hlist
  exact ⟨t, ht, hrun.err, hlist⟩

/-- Settles O41: the run of DEC_STEP from mutually inverse tables is the list decoder on MORDER. -/
theorem mtfdMatchesListRecoder : Obligations.MtfdMatchesListRecoder := by
  intro b c s hfits htables
  obtain ⟨t, ht, hrun⟩ := exec_mtfd_recoded b c hfits
  have hlist := decodeRun_eq_listDecode (startTables_inverse_of_tables htables c) (s.block b)
  rw [hrun.result] at hlist
  exact ⟨t, ht, hrun.err, hlist⟩

/-! ### Symbol by symbol (R185 to R188) -/

/-- Settles O37: T i are the tables before symbol i of the run. -/
theorem mtfeResult : Obligations.MtfeResult := by
  intro b c s hfits
  obtain ⟨t, ht, hrun⟩ := exec_mtfe_recoded b c hfits
  refine ⟨t, encTablesAt (startTables c s) (s.block b), ht, hrun.err, ?_, ?_, fun i hi => ?_, ?_⟩
  · rintro rfl
    rfl
  · rintro rfl
    rfl
  · have hstep := encodeRun_step (startTables c s) (s.block b) (i := i) (by rwa [State.block_length])
    rw [State.block, readBlock_getD s b hi] at hstep
    rw [hrun.bufRead_dst hi]
    exact hstep
  · rw [hrun.tables, encTablesAt, List.take_of_length_le (by rw [State.block_length])]

/-- Settles O38: T i are the tables before symbol i of the run, and the emitted byte moves to the front. -/
theorem mtfdResult : Obligations.MtfdResult := by
  intro b c s hfits
  obtain ⟨t, ht, hrun⟩ := exec_mtfd_recoded b c hfits
  refine ⟨t, decTablesAt (startTables c s) (s.block b), ht, hrun.err, ?_, ?_, fun i hi => ?_, ?_⟩
  · rintro rfl
    rfl
  · rintro rfl
    rfl
  · obtain ⟨hemit, hnext⟩ := decodeRun_step (startTables c s) (s.block b) (i := i) (by rwa [State.block_length])
    rw [← hemit] at hnext
    rw [State.block, readBlock_getD s b hi] at hemit
    rw [hrun.bufRead_dst hi]
    exact ⟨hemit, hnext⟩
  · rw [hrun.tables, decTablesAt, List.take_of_length_le (by rw [State.block_length])]

/-! ### Decoding undoes encoding (R191) -/

/-- A decoder fed the encoder's output from the encoder's tables. -/
theorem Recoded.decoded (he : Recoded encodeRun b c s t) (hd : Recoded decodeRun b' c' d u)
    (hinv : (startTables c s).inverse) (hstart : startTables c' d = startTables c s)
    (hblock : d.block b' = t.block (dstOf b)) : u.block (dstOf b') = s.block b ∧ u.tables = t.tables := by
  have hundo := decodeRun_encodeRun hinv (s.block b)
  rw [← he.block_dst, ← he.tables, ← hstart, ← hblock, hd.result] at hundo
  exact Prod.mk.inj hundo

/-- Settles O42: with CONT = 0 both start from the identity tables, and otherwise from the encoder's. -/
theorem roundTripMtf : Obligations.RoundTripMtf := by
  refine ⟨fun b s hfits => ?_, fun b b' c c' s d hfits htables hfitsd hstart => ?_⟩
  · obtain ⟨t, ht, he⟩ := exec_mtfe_recoded b false hfits
    obtain ⟨u, hu, hd⟩ := exec_mtfd_recoded (dstOf b) false (he.fits hfits)
    obtain ⟨hback, -⟩ := he.decoded hd identity_inverse rfl rfl
    rw [dstOf_dstOf] at hback
    exact ⟨t, u, ht, he.err, hu, hd.err, hback⟩
  · obtain ⟨t, ht, he⟩ := exec_mtfe_recoded b c hfits
    refine ⟨t, ht, he.err, fun hblock => ?_⟩
    obtain ⟨u, hu, hd⟩ := exec_mtfd_recoded b' c' hfitsd
    exact ⟨u, hu, hd.err, he.decoded hd (startTables_inverse_of_tables htables c) hstart hblock⟩

/-! ### Two runs that continue each other (R193) -/

/-- Pieces chained with CONT, for a run that is a fold over its symbols. -/
theorem Recoded.chained {b₁ b₂ b₃ : Buf} {x y z x' y' z' : State}
    (happend : ∀ T X Y, run T (X ++ Y) = ((run T X).1 ++ (run (run T X).2 Y).1, (run (run T X).2 Y).2))
    (hx : Recoded run b₁ false x x') (hy : Recoded run b₂ true y y') (hz : Recoded run b₃ false z z')
    (hblock : z.block b₃ = x.block b₁ ++ y.block b₂) (htables : y.tables = x'.tables) :
    z'.block (dstOf b₃) = x'.block (dstOf b₁) ++ y'.block (dstOf b₂) ∧ z'.tables = y'.tables := by
  have hfirst : run (startTables false z) (x.block b₁) = (x'.block (dstOf b₁), x'.tables) := hx.result
  have hsecond : run x'.tables (y.block b₂) = (y'.block (dstOf b₂), y'.tables) := htables ▸ hy.result
  have hwhole := hz.result
  rw [hblock, happend, hfirst, hsecond] at hwhole
  obtain ⟨hout, hlast⟩ := Prod.mk.inj hwhole
  exact ⟨hout.symm, hlast.symm⟩

/-- Settles O44: both runs are folds over their symbols. -/
theorem mtfChaining : Obligations.MtfChaining := by
  rintro b b' b'' x y xy x' y' xy' hx hy hxy hblock htables (⟨hx', hy', hxy'⟩ | ⟨hx', hy', hxy'⟩)
  · exact (recoded_of_exec_mtfe hx hx').chained encodeRun_append (recoded_of_exec_mtfe hy hy')
      (recoded_of_exec_mtfe hxy hxy') hblock htables
  · exact (recoded_of_exec_mtfd hx hx').chained decodeRun_append (recoded_of_exec_mtfd hy hy')
      (recoded_of_exec_mtfd hxy hxy') hblock htables

/-! ### What MTFE and MTFD leave unchanged (R190) -/

/-- All that MTFE and MTFD can do: STATUS.ERR alone is written, or a run that emits LEN bytes is written back. -/
theorem eq_of_exec_recode (ht : exec (.mtfe b c) s = .next t ∨ exec (.mtfd b c) s = .next t) :
    (∃ e, t = { s with err := e }) ∨
      ∃ r : List Byte × MtfTables, r.1.length = s.len.toNat ∧ t = { finishRecode b r s with err := 0 } := by
  rcases Nat.lt_or_ge s.cap.toNat s.len.toNat with h | h
  · left
    rcases ht with ht | ht <;> exact ⟨1, Outcome_next_inj (ht.symm.trans (exec_tooLong _ nofun h))⟩
  · right
    rcases ht with ht | ht
    · exact ⟨_, by simp, Outcome_next_inj (ht.symm.trans (exec_mtfe_fits b c h))⟩
    · exact ⟨_, by simp, Outcome_next_inj (ht.symm.trans (exec_mtfd_fits b c h))⟩

/-- Settles O39: a command that fails writes STATUS.ERR only, and one that succeeds what `finishRecode` writes. -/
theorem mtfFrame : Obligations.MtfFrame := by
  intro b c s t ht
  rcases eq_of_exec_recode ht with ⟨e, rfl⟩ | ⟨r, hr, rfl⟩
  · exact ⟨⟨rfl, rfl, rfl, rfl, rfl⟩, rfl, bufRead_with_err s e b, fun i _ => bufRead_with_err s e _ i,
      fun _ => rfl, ⟨rfl, rfl, rfl, rfl⟩, rfl, rfl⟩
  · refine ⟨by simp [KeepsInputs], finishRecode_fidx b r s, fun i => ?_, fun i hi => ?_, fun i => ?_,
      by simp [KeepsBtScratch], by simp [KeepsSsScratch]⟩
    · rw [bufRead_with_err]
      exact bufRead_eq_of_buf (finishRecode_src b r s) (finishRecode_resets b r s) i
    · rw [bufRead_with_err]
      exact bufRead_finishRecode_ge b r s (hr.trans_le hi)
    · exact ordRead_eq_of_ord (finishRecode_ord b r s) (finishRecode_resets b r s) i

/-! ### Recoding twice (R192) -/

/-- The reset state with LEN = 2 and the block 65, 65 in BUFA. -/
def pairState : State := writeBlock { State.reset with len := 2 } .bufA [65, 65]

theorem pairState_block : pairState.block .bufA = [65, 65] := by decide +kernel

theorem pairState_fits : pairState.len.toNat ≤ pairState.cap.toNat := by decide +kernel

/-- Settles O43: 65, 65 encodes to 65, 0 and that to 65, 1; 65, 65 decodes to 65, 64 and that to 65, 63. -/
theorem mtfIsNoInvolution : Obligations.MtfIsNoInvolution := by
  refine ⟨?_, ?_⟩
  · obtain ⟨t, ht, hfirst⟩ := exec_mtfe_recoded .bufA false pairState_fits
    obtain ⟨u, hu, hsecond⟩ := exec_mtfe_recoded .bufB false (hfirst.fits pairState_fits)
    have hmid : t.block .bufB = [65, 0] := (hfirst.block_dst_of_restart pairState_block).trans (by decide +kernel)
    have hlast : u.block .bufA = [65, 1] := (hsecond.block_dst_of_restart hmid).trans (by decide +kernel)
    exact ⟨.bufA, pairState, t, u, ht, hu, pairState_block, hmid, hlast⟩
  · obtain ⟨t, ht, hfirst⟩ := exec_mtfd_recoded .bufA false pairState_fits
    obtain ⟨u, hu, hsecond⟩ := exec_mtfd_recoded .bufB false (hfirst.fits pairState_fits)
    have hmid : t.block .bufB = [65, 64] := (hfirst.block_dst_of_restart pairState_block).trans (by decide +kernel)
    have hlast : u.block .bufA = [65, 63] := (hsecond.block_dst_of_restart hmid).trans (by decide +kernel)
    refine ⟨.bufA, pairState, t, u, ht, hu, hsecond.err, ?_⟩
    rw [hlast, pairState_block]
    decide

end Sys2Proof.Machine
end

section
/-! The host's operations and NOP (43_host_and_nop.md R200 to R207, R212): the value a read hands out, the spaces a write
reaches, and that every event goes on. -/

namespace Sys2Proof.Machine

variable {o : HostOp} {s t : State}

/-! ### NOP (R207) -/

/-- Settles O19: word 0 carries NOP's fields, and NOP only completes. -/
theorem nopClearsStatus : Obligations.NopClearsStatus :=
  ⟨decode_encode .nop, exec_nop⟩

/-! ### Registers (R201, R202) -/

@[simp] theorem statusWord_toNat (err : BitVec 4) : (statusWord err).toNat = err.toNat :=
  BitVec.toNat_setWidth_of_le (by decide)

/-- There is no register from number 5 on. -/
theorem regRead_eq_zero {r : Nat} (h : 5 ≤ r) (s : State) : regRead s r = 0 := by
  obtain ⟨k, rfl⟩ := Nat.exists_eq_add_of_le' h
  rfl

/-- Settles O6: the reply is `regRead`, row by row. -/
theorem registerReads : Obligations.RegisterReads := by
  refine fun r s => ⟨regRead s r, rfl, ?_, fun h => ?status, ?_, ?_, ?_, fun h => regRead_eq_zero h s⟩
  case status =>
    subst h
    exact statusWord_toNat s.err
  all_goals
    rintro rfl
    rfl

/-- A write to STATUS, to CAP or to a number without a register is ignored. -/
theorem regWrite_ignored {r : Nat} (h : r = 1 ∨ 4 ≤ r) (v : Word) (s : State) : regWrite r v s = .next s := by
  rcases h with rfl | h
  · rfl
  · obtain ⟨k, rfl⟩ := Nat.exists_eq_add_of_le' h
    rfl

/-- Settles O7: registers 0, 2 and 3 take the write, and every other number ignores it. -/
theorem registerWrites : Obligations.RegisterWrites :=
  fun v s => ⟨rfl, rfl, rfl, fun _ h => regWrite_ignored h v s⟩

/-! ### Buffers and ORD (R203 to R205) -/

/-- Settles O9: the reply is the element when the index is below NMAX, and 0 otherwise. -/
theorem bufferAndOrderReads : Obligations.BufferAndOrderReads := by
  intro i s
  refine ⟨fun b => ⟨fun h => ?_, fun h => ?_⟩, fun h => ?_, fun h => ?_⟩
  · simp only [hostOp, hostBufRead, if_pos h, reply]
  · simp only [hostOp, hostBufRead, if_neg (Nat.not_lt.mpr h), reply]
  · simp only [hostOp, hostOrdRead, if_pos h, reply]
  · simp only [hostOp, hostOrdRead, if_neg (Nat.not_lt.mpr h), reply]

theorem hostOp_hwb_of_ge {i : Nat} (b : Buf) (v : Byte) (h : s.cap.toNat ≤ i) : hostOp (.hwb b i v) s = .next s :=
  congrArg Host.Outcome.next (if_neg (Nat.not_lt.mpr h))

theorem bufRead_withBuf_set_same (s : State) (b : Buf) (i : Nat) (v : Byte) :
    bufRead (s.withBuf b ((s.buf b).set i v)) b i = v := by
  simp [bufRead, byteRead]

theorem bufRead_withBuf_set_of_ne (s : State) {b c : Buf} {i j : Nat} (v : Byte) (h : (c, j) ≠ (b, i)) :
    bufRead (s.withBuf b ((s.buf b).set i v)) c j = bufRead s c j := by
  by_cases hc : c = b
  · subst hc
    have hij : i ≠ j := fun hij => h (by rw [hij])
    simp [bufRead, byteRead, Memory.get?_set_of_ne _ _ hij]
  · exact bufRead_eq_of_buf (State.withBuf_buf_of_ne s _ hc) (State.withBuf_resets s b _) j

/-- Settles O8: below NMAX the write sets one element of one buffer, and otherwise it is dropped. -/
theorem bufferWrites : Obligations.BufferWrites := by
  refine fun b i v s => ⟨fun h => ?_, hostOp_hwb_of_ge b v⟩
  refine ⟨_, hostOp_hwb_of_lt b v h, bufRead_withBuf_set_same s b i v,
    fun c j => bufRead_withBuf_set_of_ne s v, ?_⟩
  cases b <;> rfl

/-! ### What a host operation reaches (R200) -/

/-- All that a host operation other than a CMD write can do: it writes LEN, FIDX, the buffers or the replies. -/
theorem eq_of_hostOp (ho : ∀ v, o ≠ .hwr 0 v) (ht : hostOp o s = .next t) : ∃ len fidx bufA bufB replies,
    t = { s with len := len, fidx := fidx, bufA := bufA, bufB := bufB, replies := replies } := by
  cases o with
  | hrd r | hrb b i | hro i => exact ⟨_, _, _, _, _, (Outcome_next_inj ht).symm⟩
  | hwr r v =>
    simp only [hostOp, regWrite] at ht
    split at ht
    · exact absurd rfl (ho v)
    all_goals exact ⟨_, _, _, _, _, (Outcome_next_inj ht).symm⟩
  | hwb b i v =>
    rcases Nat.lt_or_ge i s.cap.toNat with h | h
    · rw [hostOp_hwb_of_lt b v h] at ht
      cases b <;> exact ⟨_, _, _, _, _, (Outcome_next_inj ht).symm⟩
    · rw [hostOp_hwb_of_ge b v h] at ht
      exact ⟨_, _, _, _, _, (Outcome_next_inj ht).symm⟩

/-- Settles O11: the registers and buffers a host operation writes are none of these fields. -/
theorem hostReachesOnlyItsSpaces : Obligations.HostReachesOnlyItsSpaces := by
  intro o s t ho ht
  obtain ⟨len, fidx, bufA, bufB, replies, rfl⟩ := eq_of_hostOp ho ht
  exact ⟨rfl, rfl, ⟨rfl, rfl, rfl, rfl⟩, ⟨rfl, rfl⟩, rfl, rfl, rfl, rfl⟩

/-! ### Every event goes on (R212) -/

theorem exec_goesOn (i : Instr) (s : State) : goesOn (exec i s) := by
  rcases exec_cases i s with ⟨_, -, hs⟩ | ⟨hs, -⟩ <;> exact ⟨_, hs⟩

theorem execWord_goesOn (w : Word) (s : State) : goesOn (execWord w s) := by
  unfold execWord
  split
  · exact ⟨_, rfl⟩
  · exact exec_goesOn _ s

theorem hostOp_goesOn (o : HostOp) (s : State) : goesOn (hostOp o s) := by
  cases o with
  | hwr r v =>
    simp only [hostOp, regWrite]
    split
    · exact execWord_goesOn v s
    all_goals exact ⟨_, rfl⟩
  | _ => exact ⟨_, rfl⟩

theorem event_goesOn (e : HostEvent) (s : State) : goesOn (event e s) := by
  cases e with
  | op o => exact hostOp_goesOn o s
  | reset => exact ⟨_, rfl⟩

/-- Settles O5: a step does nothing or performs one event, and a command fails with a code or succeeds. -/
theorem everyStepGoesOn : Obligations.EveryStepGoesOn := by
  refine ⟨fun s => ?_, exec_goesOn⟩
  unfold step takeEvent
  split
  · exact ⟨_, rfl⟩
  · exact event_goesOn _ _

end Sys2Proof.Machine
end

section
/-! Blocks that the host carries from one state to another: the wire formats (43_host_and_nop.md R210, R211), the host's
program that loads a block and issues a command, and the round trips (42_mtf_recoder.md R191, 41_bwt_transformer.md R168,
30_encoding.md R103). -/

namespace Sys2Proof.Machine

variable {b : Buf} {i : Instr} {s t : State}

/-! ### Wire records (R210, R211) -/

/-- The four bytes of a word, the most significant first, are the word. -/
theorem append_bytes_eq (f : Word) :
    f.extractLsb' 24 8 ++ (f.extractLsb' 16 8 ++ (f.extractLsb' 8 8 ++ f.extractLsb' 0 8)) = f := by
  rw [BitVec.extractLsb'_append_extractLsb'_eq_extractLsb' (by rfl),
    BitVec.extractLsb'_append_extractLsb'_eq_extractLsb' (by rfl),
    BitVec.extractLsb'_append_extractLsb'_eq_extractLsb' (by rfl)]
  exact BitVec.extractLsb'_eq_self

@[simp] theorem parseRecord_wireRecord (order : Config.WireOrder) (f : Word) (payload : List Byte) :
    parseRecord order (wireRecord order f payload) = .ok (f, payload) := by
  cases order <;> exact congrArg (fun g => Except.ok (g, payload)) (append_bytes_eq f)

/-- Settles O46: the header's bytes put together are FIDX, and a header needs four bytes. -/
theorem wireRecordReadsBack : Obligations.WireRecordReadsBack := by
  refine fun order => ⟨parseRecord_wireRecord order, fun stream hshort => ?_⟩
  unfold parseRecord
  split
  · simp only [List.length_cons] at hshort
    omega
  · rfl

theorem wireHeader_length (order : Config.WireOrder) (f : Word) : (wireHeader order f).length = 4 := by
  cases order <;> rfl

/-- Settles O47: each of the three commands completes, and its body is the block of DSTBUF. -/
theorem wireStreamOfEachResult : Obligations.WireStreamOfEachResult := by
  intro order i b c s hfits hi
  have hbody (t : State) : (readBlock t (dstOf b) s.len.toNat).length = s.len.toNat ∧
      ∀ k, k < s.len.toNat → (readBlock t (dstOf b) s.len.toNat).getD k 0 = bufRead t (dstOf b) k :=
    ⟨readBlock_length _ _ _, fun _ => readBlock_getD t (dstOf b)⟩
  rcases hi with rfl | rfl | ⟨rfl, hpos⟩
  · obtain ⟨t, ht, he⟩ := exec_mtfe_recoded b c hfits
    exact ⟨t, [], _, ht, he.err, rfl, nofun, fun _ => rfl, hbody t⟩
  · obtain ⟨t, ht, hd⟩ := exec_mtfd_recoded b c hfits
    exact ⟨t, [], _, ht, hd.err, rfl, nofun, fun _ => rfl, hbody t⟩
  · obtain ⟨t, ht, herr, -⟩ := exec_bwtf_spec b hfits hpos
    exact ⟨t, wireHeader order t.fidx, _, ht, herr, rfl, fun _ => ⟨rfl, wireHeader_length order _⟩,
      fun h => absurd rfl h, hbody t⟩

/-! ### Loading a block and issuing a command -/

/-- `s` after a host has written `bytes` to buffer `b` and their number to LEN. -/
def State.withBlock (s : State) (b : Buf) (bytes : List Byte) : State :=
  writeBlock { s with len := BitVec.ofNat 32 bytes.length } b bytes

@[simp] theorem State.withBlock_fidx (s : State) (b : Buf) (bytes : List Byte) :
    (s.withBlock b bytes).fidx = s.fidx := by
  simp [State.withBlock]

@[simp] theorem State.withBlock_inputs (s : State) (b : Buf) (bytes : List Byte) :
    (s.withBlock b bytes).inputs = s.inputs := by
  simp [State.withBlock]

theorem hostOp_cmd_encode (i : Instr) (s : State) : hostOp (.hwr 0 (encode i)) s = exec i s := by
  simp only [hostOp, regWrite, execWord, decode_encode]

/-- A command line at the end of a script ends as the command does. -/
theorem run_loadScript_command (ht : exec i s = .next t) :
    Host.Core.run core 1 (loadScript [.command i] s) = .next t :=
  run_of_op (s := loadScript [.command i] s) rfl ((hostOp_cmd_encode i s).trans ht) 0

section

variable {bytes : List Byte} (hfit : bytes.length ≤ s.cap.toNat)
include hfit

/-- LEN holds the number of bytes, because a capacity has 32 bits. -/
theorem State.withBlock_len_toNat : (s.withBlock b bytes).len.toNat = bytes.length := by
  rw [State.withBlock, writeBlock_len]
  exact Nat.mod_eq_of_lt (hfit.trans_lt s.cap.isLt)

theorem State.withBlock_fits : (s.withBlock b bytes).len.toNat ≤ (s.withBlock b bytes).cap.toNat := by
  rw [State.withBlock_len_toNat hfit, State.withBlock, writeBlock_cap]
  exact hfit

theorem State.withBlock_block : (s.withBlock b bytes).block b = bytes := by
  rw [State.block, State.withBlock_len_toNat hfit]
  exact readBlock_of_setFrom (writeBlock_buf_same _ b bytes) (writeBlock_resets _ b bytes)

/-- The host's program that writes LEN and the bytes of a block and then issues a command ends as the command does. -/
theorem run_loadBlock_command (ht : exec i (s.withBlock b bytes) = .next t) :
    Host.Core.run core (bytes.length + 2)
      (loadScript [.WR .LEN (BitVec.ofNat 32 bytes.length), .WB b 0 bytes, .command i] s) = .next t := by
  have hbytes := run_loadScript_WB (s := { s with len := BitVec.ofNat 32 bytes.length }) (b := b) (i := 0)
    (by rwa [Nat.zero_add]) [.command i] 1
  exact (run_of_op rfl rfl _).trans (hbytes.trans (run_loadScript_command ht))

end

theorem exec_keepsInputs (ht : exec i s = .next t) : KeepsInputs s t := by
  obtain ⟨hkeeps, -⟩ := onlyNamedCommandsWriteEachSpace i s t ht
  exact hkeeps

/-! ### MTFE here, MTFD elsewhere (R191) -/

theorem recodedStream_eq_block {n : Nat} (b : Buf) (hn : t.len.toNat = n) : recodedStream b n t = t.block (dstOf b) := by
  rw [recodedStream, State.block, hn]

/-- Settles O48: the decoder's block is the stream, and both runs start from the identity tables. -/
theorem recodedStreamDecodesElsewhere : Obligations.RecodedStreamDecodesElsewhere := by
  intro order b b' s d hfits hfitd hin
  obtain ⟨t, ht, he⟩ := exec_mtfe_recoded b false hfits
  have hstream : recodedStream b s.len.toNat t = t.block (dstOf b) := recodedStream_eq_block b (by rw [he.len])
  have hfit : (t.block (dstOf b)).length ≤ d.cap.toNat := by rwa [State.block_length, he.len]
  obtain ⟨u, hu, hd⟩ := exec_mtfd_recoded b' false (State.withBlock_fits hfit)
  obtain ⟨hback, -⟩ := he.decoded hd identity_inverse rfl (State.withBlock_block hfit)
  have hlenu : u.len.toNat = (t.block (dstOf b)).length := by rw [hd.len, State.withBlock_len_toNat hfit]
  refine ⟨t, _, u, ht, congrArg some hstream, run_loadBlock_command hfit hu, hd.err, ?_,
    congrArg some ((recodedStream_eq_block b' hlenu).trans hback)⟩
  obtain ⟨-, -, -, hinputs, -⟩ := exec_keepsInputs hu
  rw [hinputs, State.withBlock_inputs, hin]

/-! ### BWTF here, BWTI elsewhere (R168) -/

/-- BWTI gives back the block from every state that has the payload and FIDX of a BWTF, in whichever buffer and under
whichever capacity. -/
theorem exec_bwtf_invertible (b : Buf) (hpos : 1 ≤ s.len.toNat) (hfits : s.len.toNat ≤ s.cap.toNat) :
    ∃ t, exec (.bwtf b) s = .next t ∧ t.err = 0 ∧ t.len = s.len ∧ t.cap = s.cap ∧
      ∀ (c : Buf) (d : State), d.block c = t.block (dstOf b) → d.fidx = t.fidx → d.len.toNat ≤ d.cap.toNat →
        ∃ u, exec (.bwti c) d = .next u ∧ u.err = 0 ∧ u.block (dstOf c) = s.block b := by
  obtain ⟨t, ht, herr, hlent, hcapt, -, -, -, horder, hfidx, hpay⟩ := exec_bwtf_spec b hfits hpos
  obtain ⟨hrow, hzero⟩ := IsWeakOrder.fidx_row horder.weak hpos hfidx
  refine ⟨t, ht, herr, hlent, hcapt, fun c d hblock hfd hfitd => ?_⟩
  have hpayd : d.block c = (t.order s.len.toNat).map (payloadByte (s.block b)) := by
    rw [hblock, State.block, hlent]
    exact hpay
  have hlend : d.len.toNat = (s.block b).length := by
    rw [← State.block_length d c, hblock, State.block_length, State.block_length, hlent]
  obtain ⟨u, hu, herru, hout⟩ := exec_bwti_of_payload horder.weak hfitd hlend hpayd
    (by rwa [hfd, readBlock_length])
  refine ⟨u, hu, herru, hout.trans ?_⟩
  rw [hfd, hzero]
  exact rot_zero _

/-- The operations of R211 as a script: FIDX, LEN, the payload, BWTI. -/
def inverseScript (b : Buf) (f : Word) (payload : List Byte) : List ScriptLine :=
  [.WR .FIDX f, .WR .LEN (BitVec.ofNat 32 payload.length), .WB b 0 payload, .command (.bwti b)]

theorem inverseScript_ops_length (b : Buf) (f : Word) (payload : List Byte) :
    ((inverseScript b f payload).flatMap scriptOps).length = payload.length + 2 + 1 := by
  simp [inverseScript, scriptOps]

theorem inverseOps_wireRecord {nmax : Nat} {payload : List Byte} (order : Config.WireOrder) (b : Buf) (f : Word)
    (h : payload.length ≤ nmax) :
    inverseOps order nmax b (wireRecord order f payload) = .ok ((inverseScript b f payload).flatMap scriptOps) := by
  simp [inverseOps, Nat.not_lt.mpr h, inverseScript, scriptOps, regNumber]

theorem run_inverseScript {f : Word} {payload : List Byte} (hfit : payload.length ≤ s.cap.toNat)
    (ht : exec (.bwti b) (State.withBlock { s with fidx := f } b payload) = .next t) :
    Host.Core.run core (payload.length + 2 + 1) (loadScript (inverseScript b f payload) s) = .next t :=
  (run_of_op rfl rfl _).trans (run_loadBlock_command (s := { s with fidx := f }) hfit ht)

/-- A host that is about to perform a script and nothing else. -/
theorem loadScript_alone (lines : List ScriptLine) (s : State) :
    { s with inputs := (lines.flatMap scriptOps).map HostEvent.op } = loadScript lines { s with inputs := [] } := by
  simp [loadScript]

/-- Settles O49: the record reads back as FIDX and payload, and with both loaded BWTI restores the block. -/
theorem hostInverseProgramRestores : Obligations.HostInverseProgramRestores := by
  intro order b b' s d hpos hfits hfitd
  obtain ⟨t, ht, -, hlent, -, hinv⟩ := exec_bwtf_invertible b hpos hfits
  have hrecord : forwardRecord order b s.len.toNat t = wireRecord order t.fidx (t.block (dstOf b)) := by
    rw [forwardRecord, State.block, hlent]
  have hfit : (t.block (dstOf b)).length ≤ d.cap.toNat := by rwa [State.block_length, hlent]
  obtain ⟨u, hu, herr, hblock⟩ := hinv b'
    (State.withBlock { d with inputs := [], fidx := t.fidx } b' (t.block (dstOf b)))
    (State.withBlock_block hfit) (State.withBlock_fidx _ b' _) (State.withBlock_fits hfit)
  obtain ⟨hlen, -, -, hinputs, -⟩ := exec_keepsInputs hu
  refine ⟨t, _, u, ht, hrecord ▸ inverseOps_wireRecord order b' t.fidx hfit, ?_, herr, ?_, ?_⟩
  · rw [inverseScript_ops_length, loadScript_alone]
    exact run_inverseScript (s := { d with inputs := [] }) hfit hu
  · rw [hinputs, State.withBlock_inputs]
  · have hlenu : u.len.toNat = (t.block (dstOf b)).length :=
      (congrArg BitVec.toNat hlen).trans (State.withBlock_len_toNat hfit)
    rw [State.block_length, hlent] at hlenu
    rw [← hblock, State.block, hlenu]

/-! ### COMPRESS here, EXPAND elsewhere (30_encoding.md R103) -/

/-- Settles O52: MTFD gives back the payload BWTF left, in the buffer BWTI reads, and leaves FIDX alone. -/
theorem compressThenExpandRestores : Obligations.CompressThenExpandRestores := by
  intro b s hpos hfits
  obtain ⟨p, hp, herrp, hlenp, hcapp, hinv⟩ := exec_bwtf_invertible b hpos hfits
  obtain ⟨t, ht, he⟩ := exec_mtfe_recoded (dstOf b) false (s := p) (by rwa [hlenp, hcapp])
  obtain ⟨-, hfidxt, -⟩ := mtfFrame _ _ _ _ (.inl ht)
  refine ⟨t, ((issueCommands_pair hp).2 herrp).trans ht, he.err, fun t' hlen' hfidx' hfit' hblock' => ?_⟩
  obtain ⟨q, hq, hd⟩ := exec_mtfd_recoded b false hfit'
  obtain ⟨-, hfidxq, -⟩ := mtfFrame _ _ _ _ (.inr hq)
  obtain ⟨hback, -⟩ := he.decoded hd identity_inverse rfl (by rwa [dstOf_dstOf])
  obtain ⟨u, hu, herru, hblock⟩ := hinv (dstOf b) q hback (by rw [hfidxq, hfidx', hfidxt]) (hd.fits hfit')
  rw [dstOf_dstOf] at hblock
  exact ⟨u, ((issueCommands_pair hq).2 hd.err).trans hu, herru, hblock⟩

end Sys2Proof.Machine
end

section
/-! The errors a CMD write raises (60_exceptions.md R220 to R228): what EXEC can do with a word, when each code is left
in STATUS.ERR, that a failure changes nothing else, and that no command reads STATUS.ERR. -/

namespace Sys2Proof.Machine

variable {w : Word} {i : Instr} {s t : State}

/-! ### What EXEC can do with a word (R206) -/

theorem execWord_encode (i : Instr) (s : State) : execWord (encode i) s = exec i s := hostOp_cmd_encode i s

theorem execWord_illegal (hw : w ∉ legalWords) (s : State) : execWord w s = .next { s with err := 3 } := by
  unfold execWord
  split
  · rfl
  · next i hi => exact absurd (mem_legalWords_iff.mpr ⟨i, encode_of_decode hi⟩) hw

/-- A word is illegal and raises ILLEGAL, or it is a command's and runs it. -/
theorem execWord_cases (w : Word) (s : State) :
    (w ∉ legalWords ∧ execWord w s = .next { s with err := 3 }) ∨
      ∃ i, w = encode i ∧ execWord w s = exec i s := by
  by_cases hw : w ∈ legalWords
  · obtain ⟨i, rfl⟩ := mem_legalWords_iff.mp hw
    exact .inr ⟨i, rfl, execWord_encode i s⟩
  · exact .inl ⟨hw, execWord_illegal hw s⟩

theorem encode_mem_legalWords (i : Instr) : encode i ∈ legalWords := mem_legalWords_iff.mpr ⟨i, rfl⟩

/-! ### When each code is left (R221 to R225) -/

/-- A command never raises ILLEGAL: that is the decoder's error. -/
theorem exec_err_ne_three (ht : exec i s = .next t) : t.err ≠ 3 := by
  rcases exec_cases i s with ⟨e, he, hs⟩ | ⟨hs, -, -⟩
  · obtain rfl := Outcome_next_inj (hs.symm.trans ht)
    rcases he with rfl | rfl <;> nofun
  · obtain rfl := Outcome_next_inj (hs.symm.trans ht)
    nofun

theorem priorityCode_nop (s : State) : priorityCode (encode .nop) s = 0 := rfl

theorem priorityCode_illegal (hw : w ∉ legalWords) (s : State) : priorityCode w s = 3 := if_pos hw

/-- LEN is checked against NMAX for every command but NOP, and against 0 for BWTF. -/
theorem priorityCode_eq_one_iff (i : Instr) (s : State) :
    priorityCode (encode i) s = 1 ↔
      (i ≠ .nop ∧ s.cap.toNat < s.len.toNat) ∨ ((∃ b, i = .bwtf b) ∧ s.len = 0) := by
  cases i with
  | nop => simp [priorityCode_nop]
  | bwtf b =>
    simp only [priorityCode_bwtf, BitVec.toNat_eq]
    split_ifs <;> simp_all
  | bwti b =>
    simp only [priorityCode_bwti]
    split_ifs <;> simp_all
  | _ => simp [priorityCode_sort, priorityCode_mtfe, priorityCode_mtfd]

/-- Only BWTI checks FIDX, and LEN ≤ NMAX has passed by then. -/
theorem priorityCode_eq_two_iff (i : Instr) (s : State) :
    priorityCode (encode i) s = 2 ↔
      (∃ b, i = .bwti b) ∧ s.len.toNat ≤ s.cap.toNat ∧ s.len.toNat ≤ s.fidx.toNat := by
  cases i with
  | nop => simp [priorityCode_nop]
  | bwtf b =>
    simp only [priorityCode_bwtf]
    split_ifs <;> simp
  | bwti b =>
    simp only [priorityCode_bwti]
    split_ifs <;> simp_all
  | _ =>
    simp only [priorityCode_sort, priorityCode_mtfe, priorityCode_mtfd]
    split_ifs <;> simp

/-! ### A failure changes STATUS.ERR and nothing else (R226) -/

theorem eq_with_err_of_exec {e : BitVec 4} (he : e ≠ 0) (ht : exec i s = .next t) (h : t.err = e) :
    t = { s with err := e } := by
  rcases exec_cases i s with ⟨e', -, hs⟩ | ⟨hs, -, -⟩
  · obtain rfl := Outcome_next_inj (hs.symm.trans ht)
    rw [← h]
  · obtain rfl := Outcome_next_inj (hs.symm.trans ht)
    exact absurd h.symm he

theorem eq_with_err_of_execWord (ht : execWord w s = .next t) (h : t.err ≠ 0) : t = { s with err := t.err } := by
  rcases execWord_cases w s with ⟨-, hs⟩ | ⟨i, -, hs⟩
  · obtain rfl := Outcome_next_inj (hs.symm.trans ht)
    rfl
  · exact eq_with_err_of_exec h (hs.symm.trans ht) rfl

/-! ### STATUS.ERR is overwritten and never read (R228, R29) -/

/-- The checks and the operation of a command read other fields only, and STATUS.ERR is written last. -/
theorem exec_with_err (i : Instr) (e : BitVec 4) (s : State) : exec i { s with err := e } = exec i s := by
  cases i with
  | nop => rfl
  | sort b => rfl
  | bwtf b | bwti b | mtfe b c | mtfd b c => cases b <;> rfl

theorem execWord_with_err (w : Word) (e : BitVec 4) (s : State) : execWord w { s with err := e } = execWord w s := by
  rcases execWord_cases w s with ⟨hw, hs⟩ | ⟨i, rfl, hs⟩
  · exact (execWord_illegal hw _).trans hs.symm
  · exact (execWord_encode i _).trans ((exec_with_err i e s).trans hs.symm)

/-! ### The obligations -/

/-- Settles O13: an illegal word raises ILLEGAL, and no command ends with its code. -/
theorem illegalRaised : Obligations.IllegalRaised := by
  intro w s
  rcases execWord_cases w s with ⟨hw, hs⟩ | ⟨i, rfl, hs⟩
  · exact ⟨_, hs, iff_of_true rfl hw, fun _ => rfl⟩
  · obtain ⟨t, ht⟩ := exec_goesOn i s
    have hlegal := encode_mem_legalWords i
    exact ⟨t, hs.trans ht, iff_of_false (exec_err_ne_three ht) (not_not_intro hlegal), fun hw => absurd hlegal hw⟩

/-- Settles O14: the code is that of the first check that fails, and it is 1 for the two checks of LEN alone. -/
theorem validationRaised : Obligations.ValidationRaised := by
  intro i s
  obtain ⟨t, ht, herr⟩ := exec_priorityCode i s
  exact ⟨t, ht, herr ▸ priorityCode_eq_one_iff i s, eq_with_err_of_exec (by decide) ht⟩

/-- Settles O15: the code is that of the first check that fails, and it is 2 for the check of FIDX alone. -/
theorem formatRaised : Obligations.FormatRaised := by
  intro i s
  obtain ⟨t, ht, herr⟩ := exec_priorityCode i s
  exact ⟨t, ht, herr ▸ priorityCode_eq_two_iff i s, eq_with_err_of_exec (by decide) ht⟩

/-- Settles O16: legality is checked first, then a command's own checks; the host's other writes leave STATUS alone. -/
theorem errorCodeFollowsPriority : Obligations.ErrorCodeFollowsPriority := by
  refine ⟨fun w s => ?_, fun v b k x s => ⟨rfl, rfl, hostBufWrite b k x s, rfl, ?_⟩⟩
  · rcases execWord_cases w s with ⟨hw, hs⟩ | ⟨i, rfl, hs⟩
    · exact ⟨_, hs, (priorityCode_illegal hw s).symm⟩
    · rw [hs]
      exact exec_priorityCode i s
  · obtain ⟨-, -, -, -, herr, -⟩ := hostReachesOnlyItsSpaces (.hwb b k x) s _ nofun rfl
    exact herr

/-- Settles O17: an illegal word and a command that fails only raise their error. -/
theorem failedCommandChangesOnlyStatus : Obligations.FailedCommandChangesOnlyStatus :=
  ⟨raise_eq, fun _ _ _ => eq_with_err_of_execWord⟩

/-- Settles O18: a retry starts from the old state but for STATUS.ERR, which no command reads. -/
theorem statusIsOverwrittenAndNeverRead : Obligations.StatusIsOverwrittenAndNeverRead := by
  refine ⟨execWord_with_err, fun w s t ht h => ?_⟩
  calc execWord w t = execWord w { s with err := t.err } := congrArg _ (eq_with_err_of_execWord ht h)
    _ = execWord w s := execWord_with_err w t.err s
    _ = .next t := ht

end Sys2Proof.Machine
end

section
/-! Reset (70_reset_and_hazards.md R251, R252; 10_state.md R38): the state it leaves, and that the commands on a block of
length 0 that succeed change nothing in it. -/

namespace Sys2Proof.Machine

variable {s : State}

/-! ### A recoding of no bytes (42_mtf_recoder.md R190) -/

theorem finishRecode_nil (b : Buf) (s : State) : finishRecode b ([], s.tables) s = s := by
  cases b <;> rfl

/-! ### Identity tables (42_mtf_recoder.md R182) -/

/-- Going on from the identity is starting from it. -/
theorem startTables_of_identity (h : s.tables = MtfTables.identity) (c : Bool) :
    startTables c s = MtfTables.identity := by
  cases c with
  | false => rfl
  | true => exact h

/-! ### The reset state -/

theorem resetOf_fits (nmax : Word) (gen : Nat) :
    (State.resetOf nmax gen).len.toNat ≤ (State.resetOf nmax gen).cap.toNat :=
  Nat.zero_le _

theorem exec_sort_resetOf (b : Buf) (nmax : Word) (gen : Nat) :
    exec (.sort b) (State.resetOf nmax gen) = .next (State.resetOf nmax gen) := by
  obtain ⟨hempty, -⟩ := sortOfShortBlocks b (State.resetOf nmax gen)
  exact hempty rfl

/-- No byte is recoded, and the tables stay the identity with CONT and without. -/
theorem finishRecode_resetOf {run : MtfTables → List Byte → List Byte × MtfTables} (hrun : ∀ T, run T [] = ([], T))
    (b : Buf) (c : Bool) (nmax : Word) (gen : Nat) :
    finishRecode b (run (startTables c (State.resetOf nmax gen))
        (readBlock (State.resetOf nmax gen) b (State.resetOf nmax gen).len.toNat)) (State.resetOf nmax gen) =
      State.resetOf nmax gen := by
  have hblock : readBlock (State.resetOf nmax gen) b (State.resetOf nmax gen).len.toNat = [] := rfl
  rw [startTables_of_identity rfl, hblock, hrun]
  exact finishRecode_nil b (State.resetOf nmax gen)

theorem exec_mtfe_resetOf (b : Buf) (c : Bool) (nmax : Word) (gen : Nat) :
    exec (.mtfe b c) (State.resetOf nmax gen) = .next (State.resetOf nmax gen) := by
  rw [exec_mtfe_fits b c (resetOf_fits nmax gen), finishRecode_resetOf (fun _ => rfl)]
  rfl

theorem exec_mtfd_resetOf (b : Buf) (c : Bool) (nmax : Word) (gen : Nat) :
    exec (.mtfd b c) (State.resetOf nmax gen) = .next (State.resetOf nmax gen) := by
  rw [exec_mtfd_fits b c (resetOf_fits nmax gen), finishRecode_resetOf (fun _ => rfl)]
  rfl

/-! ### The obligations -/

/-- Settles O54: LEN is 0, so SORT, MTFE and MTFD work on no byte, BWTF fails its check of LEN and BWTI that of FIDX;
MTFE with CONT starts from the identity when the tables are the identity. -/
theorem firstCommandsAfterReset : Obligations.FirstCommandsAfterReset := by
  refine ⟨fun nmax gen b c => ?_, fun b s h => ?_⟩
  · exact ⟨rfl, rfl, rfl, rfl, exec_sort_resetOf b nmax gen, exec_mtfe_resetOf b c nmax gen,
      exec_mtfd_resetOf b c nmax gen, exec_bwtf_empty b rfl,
      exec_bwti_format b (resetOf_fits nmax gen) (Nat.zero_le _)⟩
  · simp only [exec, execMtfe, startTables_of_identity h]

/-- Settles O53: the memories list no element after the reset event, so each reads as its free value. -/
theorem resetGivesResetState : Obligations.ResetGivesResetState := by
  intro s
  have hbuf : ∀ b, (resetEvent s).buf b = [] := fun b => by cases b <;> rfl
  refine ⟨resetEvent s, rfl, rfl, rfl, rfl, rfl, rfl, ?tables, ?buffers, fun _ => rfl, rfl, rfl, rfl, rfl, rfl, rfl, rfl⟩
  case tables => exact fun r h => ⟨identity_morder r h, identity_mrank r h⟩
  case buffers =>
    intro b i
    rw [bufRead, hbuf]
    rfl

end Sys2Proof.Machine
end
